-- ==== Sys2Proof/Word.lean ====
section
/-! DEFINITION. The two word types of the block: a byte, and a finite sequence of bytes (R6). -/

namespace Sys2Proof

/-- A byte, a natural number in 0..255 (R6). -/
abbrev Byte := BitVec 8

/-- A byte sequence, a finite list of bytes (R6). -/
abbrev Bytes := List Byte

end Sys2Proof
end

