-- ==== Sys2Proof/Config.lean ====
section
/-! DEFINITION. The implementation parameters of R5, each at the value the spec states. The block has
no other parameter, and the spec leaves no value free, so there is no opaque constant here. -/

namespace Sys2Proof.Config

/-- `BYTE_BITS`, the bits of a source byte and of a decoded byte (R5); `Byte` has this width. -/
@[simp] abbrev byteBits : Nat := 8

/-- `READ_MIN`, the least bit count of one READ_BITS (R5). -/
@[simp] abbrev readMin : Nat := 1

/-- `READ_MAX`, the greatest bit count of one READ_BITS (R5). -/
@[simp] abbrev readMax : Nat := 32

/-- `MIN_WIDTH`, the code width after initialisation and after reset (R5); `Width.w9` has it. -/
@[simp] abbrev minWidth : Nat := 9

/-- `MAX_WIDTH`, the greatest code width (R5). -/
@[simp] abbrev maxWidth : Nat := 12

/-- `NUM_LITERALS`, the number of literal entries (R5). -/
@[simp] abbrev numLiterals : Nat := 256

/-- `EOF_CODE`, the end-of-stream control code (R5). -/
@[simp] abbrev eofCode : Nat := 256

/-- `RESET_CODE`, the reset-dictionary control code (R5). -/
@[simp] abbrev resetCode : Nat := 257

/-- `FIRST_DYNAMIC`, the code of the first appended entry (R5). -/
@[simp] abbrev firstDynamic : Nat := 258

/-- `DICT_CAP`, the greatest dictionary length (R5). -/
@[simp] abbrev dictCap : Nat := 4095

/-- `LIT_ROT`, the right rotation of a literal code into its byte (R5). -/
@[simp] abbrev litRot : Nat := 3

end Sys2Proof.Config
end

