-- ==== Sys2Proof/Syntax.lean ====
section
/-! DEFINITION. The instructions of the block: one constructor for each row of spec/opcode_table.json,
24 code words (six classes in four formats, R43 and R46) and the four commands (R51). -/

namespace Sys2Proof

/-- The code width, which selects the code-word format W9 to W12 (R16, R43). The spec's natural number
9..12 is `Width.bits`. -/
inductive Width where
  | w9
  | w10
  | w11
  | w12
deriving DecidableEq, Repr

/-- The number of bits of a code word at this width (R43). -/
def Width.bits : Width → Nat
  | .w9 => 9
  | .w10 => 10
  | .w11 => 11
  | .w12 => 12

/-- The width one greater, 12 staying 12 (R71). -/
def Width.succ : Width → Width
  | .w9 => .w10
  | .w10 => .w11
  | .w11 => .w12
  | .w12 => .w12

/-- The six classes of a code word (R45, R46). -/
inductive CodeClass where
  | eof
  | reset
  | kwkwk
  | lit
  | dict
  | corrupt
deriving DecidableEq, Repr

/-- One instruction. A code word names its class and format; `LIT` carries the literal index, `DICT`,
`KWKWK` and `CORRUPT` the code value (R46). A command carries its operand (R51): `INIT` the byte source,
which travels outside the command word, `READ_BITS` its bit count as a natural number (R55). -/
inductive Instr where
  /-- `LIT` in format W9, R66. -/
  | lit9 (index : BitVec 8)
  /-- `EOF` in format W9, R64. -/
  | eof9
  /-- `RESET` in format W9, R65. -/
  | reset9
  /-- `DICT` in format W9, R67. -/
  | dict9 (code : BitVec 9)
  /-- `KWKWK` in format W9, R68. -/
  | kwkwk9 (code : BitVec 9)
  /-- `CORRUPT` in format W9, R69. -/
  | corrupt9 (code : BitVec 9)
  /-- `LIT` in format W10, R66. -/
  | lit10 (index : BitVec 8)
  /-- `EOF` in format W10, R64. -/
  | eof10
  /-- `RESET` in format W10, R65. -/
  | reset10
  /-- `DICT` in format W10, R67. -/
  | dict10 (code : BitVec 10)
  /-- `KWKWK` in format W10, R68. -/
  | kwkwk10 (code : BitVec 10)
  /-- `CORRUPT` in format W10, R69. -/
  | corrupt10 (code : BitVec 10)
  /-- `LIT` in format W11, R66. -/
  | lit11 (index : BitVec 8)
  /-- `EOF` in format W11, R64. -/
  | eof11
  /-- `RESET` in format W11, R65. -/
  | reset11
  /-- `DICT` in format W11, R67. -/
  | dict11 (code : BitVec 11)
  /-- `KWKWK` in format W11, R68. -/
  | kwkwk11 (code : BitVec 11)
  /-- `CORRUPT` in format W11, R69. -/
  | corrupt11 (code : BitVec 11)
  /-- `LIT` in format W12, R66. -/
  | lit12 (index : BitVec 8)
  /-- `EOF` in format W12, R64. -/
  | eof12
  /-- `RESET` in format W12, R65. -/
  | reset12
  /-- `DICT` in format W12, R67. -/
  | dict12 (code : BitVec 12)
  /-- `KWKWK` in format W12, R68. -/
  | kwkwk12 (code : BitVec 12)
  /-- `CORRUPT` in format W12, R69. -/
  | corrupt12 (code : BitVec 12)
  /-- Command `INIT`, R93. -/
  | init (source : Bytes)
  /-- Command `STEP`, R62. -/
  | step
  /-- Command `SYNC`, R57. -/
  | sync
  /-- Command `READ_BITS`, R54. -/
  | readBits (n : Nat)
deriving DecidableEq, Repr

end Sys2Proof
end

