-- ==== Sys2Proof/WellFormed.lean ====
section
/-! DEFINITION. Which instructions are well formed: the operand ranges that R46 and R51 give each row,
as far as they do not depend on the dictionary. -/

namespace Sys2Proof

/-- The operand lies in the range of its row: a `DICT` or `KWKWK` code is at least 258 and a `CORRUPT`
code at least 259, since `len(dict)` is at least 258 (R17, R46); `READ_BITS` asks for 1 to 32 bits (R55).
Every literal index is legal, and `EOF`, `RESET`, `INIT`, `STEP` and `SYNC` have nothing to check. -/
def Instr.wf : Instr → Bool
  | .lit9 _ => true
  | .eof9 => true
  | .reset9 => true
  | .dict9 c => decide (Config.firstDynamic ≤ c.toNat)
  | .kwkwk9 c => decide (Config.firstDynamic ≤ c.toNat)
  | .corrupt9 c => decide (Config.firstDynamic < c.toNat)
  | .lit10 _ => true
  | .eof10 => true
  | .reset10 => true
  | .dict10 c => decide (Config.firstDynamic ≤ c.toNat)
  | .kwkwk10 c => decide (Config.firstDynamic ≤ c.toNat)
  | .corrupt10 c => decide (Config.firstDynamic < c.toNat)
  | .lit11 _ => true
  | .eof11 => true
  | .reset11 => true
  | .dict11 c => decide (Config.firstDynamic ≤ c.toNat)
  | .kwkwk11 c => decide (Config.firstDynamic ≤ c.toNat)
  | .corrupt11 c => decide (Config.firstDynamic < c.toNat)
  | .lit12 _ => true
  | .eof12 => true
  | .reset12 => true
  | .dict12 c => decide (Config.firstDynamic ≤ c.toNat)
  | .kwkwk12 c => decide (Config.firstDynamic ≤ c.toNat)
  | .corrupt12 c => decide (Config.firstDynamic < c.toNat)
  | .init _ => true
  | .step => true
  | .sync => true
  | .readBits n => decide (Config.readMin ≤ n) && decide (n ≤ Config.readMax)

end Sys2Proof
end

