-- ==== Sys2Proof/Decode.lean ====
section
/-! DEFINITION. Decoding: the classification of a code word (R45), the command words (R51), the encoder
of both, and the table's words as the host numbers them. -/

namespace Sys2Proof

/-- The class of a code value read while the dictionary holds `len` entries: the first test that holds,
in the order of R45. -/
def classify (code len : Nat) : CodeClass :=
  if code = Config.eofCode then .eof
  else if code = Config.resetCode then .reset
  else if code = len then .kwkwk
  else if code < len ∧ code < Config.numLiterals then .lit
  else if code < len then .dict
  else .corrupt

/-- The instruction that a code value of format `w` is, read while the dictionary holds `len` entries
(R45, R46). The code has at most `w.bits` bits. -/
def codeInstr (w : Width) (code len : Nat) : Instr :=
  match classify code len, w with
  | .lit, .w9 => .lit9 (BitVec.ofNat 8 code)
  | .eof, .w9 => .eof9
  | .reset, .w9 => .reset9
  | .dict, .w9 => .dict9 (BitVec.ofNat 9 code)
  | .kwkwk, .w9 => .kwkwk9 (BitVec.ofNat 9 code)
  | .corrupt, .w9 => .corrupt9 (BitVec.ofNat 9 code)
  | .lit, .w10 => .lit10 (BitVec.ofNat 8 code)
  | .eof, .w10 => .eof10
  | .reset, .w10 => .reset10
  | .dict, .w10 => .dict10 (BitVec.ofNat 10 code)
  | .kwkwk, .w10 => .kwkwk10 (BitVec.ofNat 10 code)
  | .corrupt, .w10 => .corrupt10 (BitVec.ofNat 10 code)
  | .lit, .w11 => .lit11 (BitVec.ofNat 8 code)
  | .eof, .w11 => .eof11
  | .reset, .w11 => .reset11
  | .dict, .w11 => .dict11 (BitVec.ofNat 11 code)
  | .kwkwk, .w11 => .kwkwk11 (BitVec.ofNat 11 code)
  | .corrupt, .w11 => .corrupt11 (BitVec.ofNat 11 code)
  | .lit, .w12 => .lit12 (BitVec.ofNat 8 code)
  | .eof, .w12 => .eof12
  | .reset, .w12 => .reset12
  | .dict, .w12 => .dict12 (BitVec.ofNat 12 code)
  | .kwkwk, .w12 => .kwkwk12 (BitVec.ofNat 12 code)
  | .corrupt, .w12 => .corrupt12 (BitVec.ofNat 12 code)

/-- Why bits are no instruction. -/
inductive DecodeReject where
  /-- A command word with a must-be-0 bit set, which the block refuses (R51, R78). -/
  | mustBeZero (word : BitVec 8)
  /-- A code value that does not fit the format it is given in (R43): no read answers one. -/
  | codeTooWide (w : Width) (code : Nat)
deriving DecidableEq, Repr

/-- The command of a command word (R51): bits [7:6] the command, bits [5:0] zero but for READ_BITS,
whose bits [4:0] are n - 1. `arg` is the byte source that travels with an INIT outside the word; the
other commands take no argument and ignore it (log entry 13). -/
def decodeCommand (word : BitVec 8) (arg : Bytes) : Except DecodeReject Instr :=
  let op := word.extractLsb' 6 2
  let low := word.extractLsb' 0 6
  if op = 0 then (if low = 0 then .ok (.init arg) else .error (.mustBeZero word))
  else if op = 1 then (if low = 0 then .ok .step else .error (.mustBeZero word))
  else if op = 2 then (if low = 0 then .ok .sync else .error (.mustBeZero word))
  else if word.getLsbD 5 then .error (.mustBeZero word)
  else .ok (.readBits ((word.extractLsb' 0 5).toNat + 1))

/-- The encoded form of an instruction: a command word with its argument (R51), or a code value in a
format (R43). -/
inductive Encoded where
  | command (word : BitVec 8) (arg : Bytes)
  | code (w : Width) (value : Nat)
deriving DecidableEq, Repr

/-- Decoding of either form; a code word's class depends on the dictionary's length `len` (R45). -/
def decode (e : Encoded) (len : Nat) : Except DecodeReject Instr :=
  match e with
  | .command word arg => decodeCommand word arg
  | .code w value =>
    if value < 2 ^ w.bits then .ok (codeInstr w value len) else .error (.codeTooWide w value)

/-- The words of a well-formed instruction: R46 for code words, R51 for commands. -/
def encode : Instr → Encoded
  | .lit9 i => .code .w9 i.toNat
  | .eof9 => .code .w9 Config.eofCode
  | .reset9 => .code .w9 Config.resetCode
  | .dict9 c => .code .w9 c.toNat
  | .kwkwk9 c => .code .w9 c.toNat
  | .corrupt9 c => .code .w9 c.toNat
  | .lit10 i => .code .w10 i.toNat
  | .eof10 => .code .w10 Config.eofCode
  | .reset10 => .code .w10 Config.resetCode
  | .dict10 c => .code .w10 c.toNat
  | .kwkwk10 c => .code .w10 c.toNat
  | .corrupt10 c => .code .w10 c.toNat
  | .lit11 i => .code .w11 i.toNat
  | .eof11 => .code .w11 Config.eofCode
  | .reset11 => .code .w11 Config.resetCode
  | .dict11 c => .code .w11 c.toNat
  | .kwkwk11 c => .code .w11 c.toNat
  | .corrupt11 c => .code .w11 c.toNat
  | .lit12 i => .code .w12 i.toNat
  | .eof12 => .code .w12 Config.eofCode
  | .reset12 => .code .w12 Config.resetCode
  | .dict12 c => .code .w12 c.toNat
  | .kwkwk12 c => .code .w12 c.toNat
  | .corrupt12 c => .code .w12 c.toNat
  | .init source => .command 0x00#8 source
  | .step => .command 0x40#8 []
  | .sync => .command 0x80#8 []
  | .readBits n => .command (0xC0#8 ||| BitVec.ofNat 8 (n - 1)) []

/-- The selecting condition of an instruction's row of R46, at dictionary length `len`. -/
def Instr.selectedAt (len : Nat) : Instr → Bool
  | .lit9 _ => true
  | .eof9 => true
  | .reset9 => true
  | .dict9 c => decide (Config.firstDynamic ≤ c.toNat) && decide (c.toNat < len)
  | .kwkwk9 c => decide (c.toNat = len)
  | .corrupt9 c => decide (len < c.toNat)
  | .lit10 _ => true
  | .eof10 => true
  | .reset10 => true
  | .dict10 c => decide (Config.firstDynamic ≤ c.toNat) && decide (c.toNat < len)
  | .kwkwk10 c => decide (c.toNat = len)
  | .corrupt10 c => decide (len < c.toNat)
  | .lit11 _ => true
  | .eof11 => true
  | .reset11 => true
  | .dict11 c => decide (Config.firstDynamic ≤ c.toNat) && decide (c.toNat < len)
  | .kwkwk11 c => decide (c.toNat = len)
  | .corrupt11 c => decide (len < c.toNat)
  | .lit12 _ => true
  | .eof12 => true
  | .reset12 => true
  | .dict12 c => decide (Config.firstDynamic ≤ c.toNat) && decide (c.toNat < len)
  | .kwkwk12 c => decide (c.toNat = len)
  | .corrupt12 c => decide (len < c.toNat)
  | .init _ => true
  | .step => true
  | .sync => true
  | .readBits _ => true

/-- The bits of a code value, the first stream bit first (R43). -/
def codeBits : Nat → Nat → List Bool
  | 0, _ => []
  | n + 1, code => decide (code % 2 = 1) :: codeBits n (code / 2)

/-- The value of at most eight bits, the first at bit 0 (R30). -/
def bitsValue : List Bool → Nat
  | [] => 0
  | b :: bs => (if b then 1 else 0) + 2 * bitsValue bs

/-- Stream bits packed into bytes from bit 0 up, the last byte filled with zeros: `.pad` (R30, R50). The
first argument bounds the number of bytes. -/
def packBits : Nat → List Bool → Bytes
  | 0, _ => []
  | _ + 1, [] => []
  | k + 1, b :: bs =>
    BitVec.ofNat 8 (bitsValue ((b :: bs).take 8)) :: packBits k ((b :: bs).drop 8)

/-- A code stream packed as R50 says: each code's bits in order, then `.pad`. -/
def packCodes (codes : List (Width × Nat)) : Bytes :=
  let bits := (codes.map fun c => codeBits c.1.bits c.2).flatten
  packBits bits.length bits

/-- The least dictionary length at which the decoder reads code words of this width (R16). -/
def Width.leastLen : Width → Nat
  | .w9 => 258
  | .w10 => 513
  | .w11 => 1025
  | .w12 => 2049

/-- The code-word format of a table word of `nbits` bits. A count of whole bytes, 16, does not name the
format, so the least format that holds `w` is taken (log entry 9). -/
def formatOf (nbits w : Nat) : Option Width :=
  if nbits = 9 then some .w9
  else if nbits = 10 then some .w10
  else if nbits = 11 then some .w11
  else if nbits = 12 then some .w12
  else if nbits = 16 then
    (if w < 512 then some .w9
     else if w < 1024 then some .w10
     else if w < 2048 then some .w11
     else if w < 4096 then some .w12
     else none)
  else none

/-- The instruction the decoder reads from a table word: a command word where the row has 8 bits, else
a code word, classified at the least dictionary length of its format (log entry 9). -/
def decodeTableWord (nbits w : Nat) : Option Instr :=
  if nbits = 8 then
    (match decodeCommand (BitVec.ofNat 8 w) [] with
     | .ok i => some i
     | .error _ => none)
  else
    match formatOf nbits w with
    | none => none
    | some f =>
      match decode (.code f w) f.leastLen with
      | .ok i => some i
      | .error _ => none

end Sys2Proof
end

