-- ==== Sys2Proof/Machine/Operands.lean ====
section
/-! DEFINITION. The operand forms of the block: the literal permutation, the initial dictionary, the slice
of at most one byte, and the stream bits. -/

namespace Sys2Proof.Machine

/-- The 8-bit right rotation `((i >> k) | (i << (8-k))) & 0xFF` (R6). -/
def rotr8 (i : Byte) (k : Nat) : Byte := (i >>> k) ||| (i <<< (8 - k))

/-- `rotl8(b,3) = ((b << 3) | (b >> 5)) & 0xFF`, the inverse of the literal permutation (R50, R61). -/
def rotl8 (b : Byte) (k : Nat) : Byte := (b <<< k) ||| (b >>> (8 - k))

/-- Literal entry `i`: the single byte `rotr8(i, 3)`, not `i` (R18, R61). -/
def literalEntry (i : Nat) : Bytes := [rotr8 (BitVec.ofNat 8 i) Config.litRot]

/-- The dictionary that InitDict writes: 256 literals and the two empty control placeholders (R60). -/
def initialDict : List Bytes :=
  (List.range Config.numLiterals).map literalEntry ++ [[], []]

/-- The slice `s[0:1]` of at most one byte (R6). -/
def firstByte (s : Bytes) : Bytes := s.take 1

/-- Stream bit `k` of a source: bit `k mod 8` of byte `k div 8`, where that byte exists (R42). -/
def streamBit (src : Bytes) (k : Nat) : Bool :=
  match src[k / 8]? with
  | some b => b.getLsbD (k % 8)
  | none => false

end Sys2Proof.Machine
end

