-- ==== Sys2Proof/Machine/State.lean ====
section
/-! DEFINITION. The state of one instance of the block, plain data: the reader's cursor (R11 to R14), the
decoder's state (R16 to R23), the configuration (R10), the refusal mark (R78), whether INIT has been
issued (R95), the output (R26), and the model's own list of commands the host has issued. -/

namespace Sys2Proof.Machine

/-- The fixed configuration of an instance (R10). -/
inductive CfgMode where
  /-- `DECODER`: the host issues INIT and STEP. -/
  | decoder
  /-- `READER_ONLY`: the host issues INIT, READ_BITS and SYNC. -/
  | readerOnly
deriving DecidableEq, Repr

/-- The decoder's state-machine register (R22). -/
inductive Phase where
  | justReset
  | active
  | exhausted
  | failed
deriving DecidableEq, Repr

/-- The two bits of a phase (R22). -/
def Phase.code : Phase → Nat
  | .justReset => 0
  | .active => 1
  | .exhausted => 2
  | .failed => 3

/-- The phases in which STEP reads a code word: `JUST_RESET` and `ACTIVE` (R62, R91). -/
def Phase.live : Phase → Bool
  | .justReset => true
  | .active => true
  | .exhausted => false
  | .failed => false

/-- The error record: `NONE`, or a cause with its info (R23, R84). -/
inductive ErrRecord where
  | none
  /-- `END_OF_STREAM`: the bits asked for and the bits gathered before the failure. -/
  | endOfStream (requested obtained : Nat)
  /-- `CORRUPT_STREAM`: the code value, `len(dict)` at the start of the step, and the width it was read at. -/
  | corruptStream (code dictLen width : Nat)
deriving DecidableEq, Repr

/-- The numeric cause code of R84. -/
def ErrRecord.causeCode : ErrRecord → Nat
  | .none => 0
  | .endOfStream _ _ => 1
  | .corruptStream _ _ _ => 2

/-- The outcome of one command (R52). -/
inductive CmdOutcome where
  /-- `Chunk(s)` of a STEP; `s` may be empty. -/
  | chunk (s : Bytes)
  /-- `End` of a STEP. -/
  | finished
  /-- `Value(v)` of a READ_BITS. -/
  | value (v : Nat)
  /-- `Done` of an INIT or a SYNC. -/
  | done
  /-- `Error(cause, info)` of a STEP or a READ_BITS. -/
  | error (e : ErrRecord)
deriving DecidableEq, Repr

/-- The BitCursor: the byte source with its position, and the residual bits (R11, R12, R13). -/
structure BitCursor where
  srcBytes : Bytes
  srcPos : Nat
  rcount : Nat
  rvalue : BitVec 8
deriving DecidableEq, Repr

/-- One command as the host issues it: its word (R51), and the byte source that travels with an INIT. -/
structure Command where
  word : BitVec 8
  arg : Bytes
deriving DecidableEq, Repr

/-- The state of one instance. `pending` is the model's own: the commands the host has issued and the
block has not taken, oldest first (log entry 3). `outcomes` is the outcomes so far, newest first (log
entry 4). -/
structure State where
  cfgMode : CfgMode
  inited : Bool
  refusalMark : Bool
  reader : BitCursor
  width : Width
  dict : List Bytes
  prev : Bytes
  phase : Phase
  err : ErrRecord
  pending : List Command
  outcomes : List CmdOutcome
deriving DecidableEq, Repr

/-- The ways the machine can stop with a fault. -/
inductive Fault where
  /-- Raised by the arms of LIT and DICT where the dictionary has no readable entry for the code, which R28
  rules out for every code that R45 gives one of these classes. Safe: the model stops, and no STEP reaches
  it (log entry 7). -/
  | missingEntry (code : Nat)
deriving DecidableEq, Repr

/-- The ways an instruction can have no meaning. -/
inductive Refusal where
  /-- Raised by `exec` for an instruction not modelled yet. Safe. -/
  | notModelled (mnemonic : String)
  /-- Raised by a code-word instruction in a state where STEP would not run it: outside a live STEP, at
  another width, or where R45 gives its code another class. Safe: the spec gives the row no effect there,
  and no STEP reaches it (log entry 6). -/
  | notSelected
deriving DecidableEq, Repr

/-- An instance as built, before its first INIT. Its elements other than `cfg_mode` hold no value (R95):
only INIT is legal, and INIT writes them all, so the values here are never read (log entry 2). -/
def State.preInit (mode : CfgMode) : State where
  cfgMode := mode
  inited := false
  refusalMark := false
  reader := ⟨[], 0, 0, 0#8⟩
  width := .w9
  dict := initialDict
  prev := []
  phase := .justReset
  err := .none
  pending := []
  outcomes := []

/-- The machine right after its reset, which is INIT (R93, R94): a newly built DECODER instance after
INIT of the empty sequence (log entry 1). -/
def State.reset : State where
  cfgMode := .decoder
  inited := true
  refusalMark := false
  reader := ⟨[], 0, 0, 0#8⟩
  width := .w9
  dict := initialDict
  prev := []
  phase := .justReset
  err := .none
  pending := []
  outcomes := [.done]

end Sys2Proof.Machine
end

