-- ==== Sys2Proof/Machine/Flags.lean ====
section
/-! DEFINITION. The status the block computes. It has no condition flags (R24): what a program would read
from flags is `width`, `phase` and the derived bit position. -/

namespace Sys2Proof.Machine

/-- The width after an append that leaves the dictionary at `newLen` entries (R71). -/
def widthAfter (w : Width) (newLen : Nat) : Width :=
  if 2 ^ w.bits < newLen ∧ w.bits < Config.maxWidth then w.succ else w

/-- The phase after a data code that yields `cur` (R72). -/
def phaseAfter (cur : Bytes) : Phase := if cur = [] then .justReset else .active

/-- The stream bit position `8*src_pos - rcount`, a derived value (R15). -/
def BitCursor.bitpos (c : BitCursor) : Nat := 8 * c.srcPos - c.rcount

/-- The number of stream bits of the source. -/
def BitCursor.srcBits (c : BitCursor) : Nat := 8 * c.srcBytes.length

end Sys2Proof.Machine
end

