-- ==== Sys2Proof/Machine/Ops.lean ====
section
/-! DEFINITION. The named operations on the state: the reader (R53 to R57), the dictionary (R7, R60, R70 to
R72), failure entry (R87), refusal (R78) and the emission of an outcome (R52). -/

namespace Sys2Proof.Machine

/-- What an instruction's meaning answers. -/
abbrev Result := Host.Outcome State Fault Refusal

/-! ### The reader -/

/-- ByteIn: the next source byte, or nothing where the source is exhausted (R53). -/
def byteIn (c : BitCursor) : Option (Byte × BitCursor) :=
  match c.srcBytes[c.srcPos]? with
  | some b => some (b, { c with srcPos := c.srcPos + 1 })
  | none => none

/-- A cursor that holds at least one unread bit: a byte is taken only where none is held (R34, R54). -/
def refill (c : BitCursor) : Option BitCursor :=
  if c.rcount = 0 then
    match byteIn c with
    | some (b, c') => some { c' with rvalue := b, rcount := 8 }
    | none => none
  else some c

/-- What one ReadBits answers (R54). -/
inductive ReadResult where
  | value (v : Nat)
  | endOfStream (requested obtained : Nat)
deriving DecidableEq, Repr

/-- The low `k` bits of the residual value, as a number (R54). -/
def BitCursor.lowBits (c : BitCursor) (k : Nat) : Nat := c.rvalue.toNat &&& (2 ^ k - 1)

/-- The cursor after `k` of its residual bits are consumed (R54). -/
def BitCursor.consume (c : BitCursor) (k : Nat) : BitCursor :=
  { c with rvalue := c.rvalue >>> k, rcount := c.rcount - k }

/-- The loop of ReadBits (R54), `got` bits being gathered in `result`. Each pass gathers at least one bit,
so `n` passes, the first argument, are enough. -/
def readLoop : Nat → Nat → Nat → Nat → BitCursor → ReadResult × BitCursor
  | 0, _, _, result, c => (.value result, c)
  | passes + 1, n, got, result, c =>
    if got < n then
      match refill c with
      | none => (.endOfStream n got, { c with rvalue := 0#8 })
      | some c' =>
        let k := min (n - got) c'.rcount
        readLoop passes n (got + k) (result ||| (c'.lowBits k <<< got)) (c'.consume k)
    else (.value result, c)

/-- ReadBits(n): the next `n` stream bits as an unsigned number, or EndOfStream (R54, R56). -/
def readBits (n : Nat) (c : BitCursor) : ReadResult × BitCursor := readLoop n n 0 0 c

/-- Sync: the buffered partial byte is discarded (R57). -/
def syncCursor (c : BitCursor) : BitCursor := { c with rcount := 0, rvalue := 0#8 }

/-! ### Outcomes, refusal and failure -/

/-- The command's outcome is emitted to the host (R29, R52). -/
def State.emit (s : State) (o : CmdOutcome) : State := { s with outcomes := o :: s.outcomes }

/-- A refused command: no transition and no outcome, but the refusal mark is set (R78). -/
def State.refuse (s : State) : State := { s with refusalMark := true }

/-- Failure entry, the block's trap: `err` saves the cause and its info, `phase` becomes FAILED, and the
outcome is the error (R87). The block has no return from it but INIT (R89). -/
def State.enterFailed (s : State) (e : ErrRecord) : State :=
  { s with err := e, phase := .failed, outcomes := .error e :: s.outcomes }

/-- The reader's cursor is replaced, all else kept. -/
def State.withReader (s : State) (c : BitCursor) : State := { s with reader := c }

/-! ### The dictionary -/

/-- DictRead(c): the entry of a code below the dictionary's length (R7). The control placeholders are
never read (R19, R28). -/
def State.dictRead (s : State) (code : Nat) : Option Bytes :=
  if code = Config.eofCode ∨ code = Config.resetCode then none else s.dict[code]?

/-- DictAppend(e): entry `e` at index `len(dict)` (R7). -/
def State.dictAppend (s : State) (e : Bytes) : State := { s with dict := s.dict ++ [e] }

/-- InitDict: width 9, the 258 initial entries, no previous sequence, phase JUST_RESET; the reader and
`err` are not touched (R60). -/
def State.initDict (s : State) : State :=
  { s with width := .w9, dict := initialDict, prev := [], phase := .justReset }

/-- Growth and width update of a step that yields `cur`: one entry, the old `prev` and the first byte of
`cur`, where `prev` is not empty and the dictionary not full; then the width (R70, R71, R99). -/
def State.grow (s : State) (cur : Bytes) : State :=
  if s.prev ≠ [] ∧ s.dict.length < Config.dictCap then
    let s' := s.dictAppend (s.prev ++ firstByte cur)
    { s' with width := widthAfter s'.width s'.dict.length }
  else s

/-- The end of a data step that yields `cur`: growth with the old `prev`, then `prev` and `phase`, then the
chunk (R62, R72). -/
def State.yieldData (s : State) (cur : Bytes) : State :=
  let s' := s.grow cur
  { s' with prev := cur, phase := phaseAfter cur, outcomes := .chunk cur :: s'.outcomes }

end Sys2Proof.Machine
end

