-- ==== Sys2Proof/Machine/CodeWords.lean ====
section
/-! DEFINITION. The code words: the six arms of STEP that R45 selects (R64 to R69), and one meaning for
each class and format. A meaning acts on the state right after the code word's bits are consumed. -/

namespace Sys2Proof.Machine

/-- STEP is running: the instance has its input, is a DECODER, and its phase is live (R51, R62, R95). -/
def State.stepping (s : State) : Bool :=
  s.inited && decide (s.cfgMode = .decoder) && s.phase.live

/-- Arm EOF: the normal end (R64). -/
def eofArm (s : State) : State := { s with phase := .exhausted, outcomes := .finished :: s.outcomes }

/-- Arm RESET: InitDict and an empty chunk; the reader is not touched and nothing realigns (R65, R101). -/
def resetArm (s : State) : State := s.initDict.emit (.chunk [])

/-- Arm LIT and arm DICT: the entry that exists (R66, R67). -/
def entryArm (code : Nat) (s : State) : Result :=
  match s.dictRead code with
  | some cur => .next (s.yieldData cur)
  | none => .fault (.missingEntry code)

/-- Arm KWKWK: the previous sequence and its own first byte (R68). -/
def kwkwkArm (s : State) : State := s.yieldData (s.prev ++ firstByte s.prev)

/-- Arm CORRUPT: CorruptStream, with the code, `len(dict)` and the width (R69, R87). -/
def corruptArm (code : Nat) (s : State) : State :=
  s.enterFailed (.corruptStream code s.dict.length s.width.bits)

/-- The arm of a class (R62). -/
def classArm (k : CodeClass) (code : Nat) (s : State) : Result :=
  match k with
  | .eof => .next (eofArm s)
  | .reset => .next (resetArm s)
  | .lit => entryArm code s
  | .dict => entryArm code s
  | .kwkwk => .next (kwkwkArm s)
  | .corrupt => .next (corruptArm code s)

/-- A code word of format `w` and class `k` runs its arm where STEP selects it: the width register names the
format (R43) and R45 gives the code that class. Elsewhere the row has no effect to model (log entry 6). -/
def runClass (w : Width) (k : CodeClass) (code : Nat) (s : State) : Result :=
  if s.stepping = true ∧ s.width = w ∧ classify code s.dict.length = k then classArm k code s
  else .refused .notSelected

/-- `LIT` in format W9 (R66). -/
def execLit9 (index : BitVec 8) (s : State) : Result := runClass .w9 .lit index.toNat s

/-- `EOF` in format W9 (R64). -/
def execEof9 (s : State) : Result := runClass .w9 .eof Config.eofCode s

/-- `RESET` in format W9 (R65). -/
def execReset9 (s : State) : Result := runClass .w9 .reset Config.resetCode s

/-- `DICT` in format W9 (R67). -/
def execDict9 (code : BitVec 9) (s : State) : Result := runClass .w9 .dict code.toNat s

/-- `KWKWK` in format W9 (R68). -/
def execKwkwk9 (code : BitVec 9) (s : State) : Result := runClass .w9 .kwkwk code.toNat s

/-- `CORRUPT` in format W9 (R69). -/
def execCorrupt9 (code : BitVec 9) (s : State) : Result := runClass .w9 .corrupt code.toNat s

/-- `LIT` in format W10 (R66). -/
def execLit10 (index : BitVec 8) (s : State) : Result := runClass .w10 .lit index.toNat s

/-- `EOF` in format W10 (R64). -/
def execEof10 (s : State) : Result := runClass .w10 .eof Config.eofCode s

/-- `RESET` in format W10 (R65). -/
def execReset10 (s : State) : Result := runClass .w10 .reset Config.resetCode s

/-- `DICT` in format W10 (R67). -/
def execDict10 (code : BitVec 10) (s : State) : Result := runClass .w10 .dict code.toNat s

/-- `KWKWK` in format W10 (R68). -/
def execKwkwk10 (code : BitVec 10) (s : State) : Result := runClass .w10 .kwkwk code.toNat s

/-- `CORRUPT` in format W10 (R69). -/
def execCorrupt10 (code : BitVec 10) (s : State) : Result := runClass .w10 .corrupt code.toNat s

/-- `LIT` in format W11 (R66). -/
def execLit11 (index : BitVec 8) (s : State) : Result := runClass .w11 .lit index.toNat s

/-- `EOF` in format W11 (R64). -/
def execEof11 (s : State) : Result := runClass .w11 .eof Config.eofCode s

/-- `RESET` in format W11 (R65). -/
def execReset11 (s : State) : Result := runClass .w11 .reset Config.resetCode s

/-- `DICT` in format W11 (R67). -/
def execDict11 (code : BitVec 11) (s : State) : Result := runClass .w11 .dict code.toNat s

/-- `KWKWK` in format W11 (R68). -/
def execKwkwk11 (code : BitVec 11) (s : State) : Result := runClass .w11 .kwkwk code.toNat s

/-- `CORRUPT` in format W11 (R69). -/
def execCorrupt11 (code : BitVec 11) (s : State) : Result := runClass .w11 .corrupt code.toNat s

/-- `LIT` in format W12 (R66). -/
def execLit12 (index : BitVec 8) (s : State) : Result := runClass .w12 .lit index.toNat s

/-- `EOF` in format W12 (R64). -/
def execEof12 (s : State) : Result := runClass .w12 .eof Config.eofCode s

/-- `RESET` in format W12 (R65). -/
def execReset12 (s : State) : Result := runClass .w12 .reset Config.resetCode s

/-- `DICT` in format W12 (R67). -/
def execDict12 (code : BitVec 12) (s : State) : Result := runClass .w12 .dict code.toNat s

/-- `KWKWK` in format W12 (R68). -/
def execKwkwk12 (code : BitVec 12) (s : State) : Result := runClass .w12 .kwkwk code.toNat s

/-- `CORRUPT` in format W12 (R69). -/
def execCorrupt12 (code : BitVec 12) (s : State) : Result := runClass .w12 .corrupt code.toNat s

/-- The code word that STEP has read and classified, run by its own meaning. A command is no code word. -/
def execCodeWord (i : Instr) (s : State) : Result :=
  match i with
  | .lit9 index => execLit9 index s
  | .eof9 => execEof9 s
  | .reset9 => execReset9 s
  | .dict9 code => execDict9 code s
  | .kwkwk9 code => execKwkwk9 code s
  | .corrupt9 code => execCorrupt9 code s
  | .lit10 index => execLit10 index s
  | .eof10 => execEof10 s
  | .reset10 => execReset10 s
  | .dict10 code => execDict10 code s
  | .kwkwk10 code => execKwkwk10 code s
  | .corrupt10 code => execCorrupt10 code s
  | .lit11 index => execLit11 index s
  | .eof11 => execEof11 s
  | .reset11 => execReset11 s
  | .dict11 code => execDict11 code s
  | .kwkwk11 code => execKwkwk11 code s
  | .corrupt11 code => execCorrupt11 code s
  | .lit12 index => execLit12 index s
  | .eof12 => execEof12 s
  | .reset12 => execReset12 s
  | .dict12 code => execDict12 code s
  | .kwkwk12 code => execKwkwk12 code s
  | .corrupt12 code => execCorrupt12 code s
  | .init _ => .refused .notSelected
  | .step => .refused .notSelected
  | .sync => .refused .notSelected
  | .readBits _ => .refused .notSelected

end Sys2Proof.Machine
end

