-- ==== Sys2Proof/Machine/Commands.lean ====
section
/-! DEFINITION. The four commands of R51: INIT (R93), STEP (R62, R63), SYNC (R57) and READ_BITS (R54 to
R56). A command that is refused sets the refusal mark and changes nothing else (R78). -/

namespace Sys2Proof.Machine

/-- A command legal only in mode `m`: elsewhere, and before the first INIT, it is refused (R51, R95). -/
def legalIn (m : CfgMode) (s : State) (run : Result) : Result :=
  if s.inited = true ∧ s.cfgMode = m then run else .next s.refuse

/-- `INIT`: the reader, the dictionary, `prev`, `phase` and `err` begin anew over the source, in either mode
and at any time; `cfg_mode` and the refusal mark stay (R93). -/
def execInit (source : Bytes) (s : State) : Result :=
  let s' := (s.withReader ⟨source, 0, 0, 0#8⟩).initDict
  .next ({ s' with err := .none, inited := true }.emit .done)

/-- STEP's code read in a live phase: EndOfStream is taken as a failure, a code word is classified and run
(R62, R87). -/
def stepLive (s : State) : Result :=
  match readBits s.width.bits s.reader with
  | (.endOfStream requested obtained, c) =>
    .next ((s.withReader c).enterFailed (.endOfStream requested obtained))
  | (.value code, c) => execCodeWord (codeInstr s.width code s.dict.length) (s.withReader c)

/-- `STEP` (R62); in EXHAUSTED and FAILED it repeats the outcome and reads nothing (R63). -/
def execStep (s : State) : Result :=
  legalIn .decoder s
    (match s.phase with
     | .exhausted => .next (s.emit .finished)
     | .failed => .next (s.emit (.error s.err))
     | .justReset => stepLive s
     | .active => stepLive s)

/-- `SYNC` (R57). -/
def execSync (s : State) : Result :=
  legalIn .readerOnly s (.next ((s.withReader (syncCursor s.reader)).emit .done))

/-- `READ_BITS` of `n` bits (R54, R56); a count outside 1 to 32 is refused (R55). The error of a failing
read is its outcome only: failure entry is STEP's (R87, log entry 16). -/
def execReadBits (n : Nat) (s : State) : Result :=
  legalIn .readerOnly s
    (if Config.readMin ≤ n ∧ n ≤ Config.readMax then
      match readBits n s.reader with
      | (.endOfStream requested obtained, c) =>
        .next ((s.withReader c).emit (.error (.endOfStream requested obtained)))
      | (.value v, c) => .next ((s.withReader c).emit (.value v))
     else .next s.refuse)

end Sys2Proof.Machine
end

