-- ==== Sys2Proof/Machine/Dispatch.lean ====
section
/-! DEFINITION. exec: one arm for each instruction. -/

namespace Sys2Proof.Machine

def exec (i : Instr) (s : State) : Host.Outcome State Fault Refusal :=
  match i with
  | .lit9 index => Sys2Proof.Machine.execLit9 index s
  | .eof9 => Sys2Proof.Machine.execEof9 s
  | .reset9 => Sys2Proof.Machine.execReset9 s
  | .dict9 code => Sys2Proof.Machine.execDict9 code s
  | .kwkwk9 code => Sys2Proof.Machine.execKwkwk9 code s
  | .corrupt9 code => Sys2Proof.Machine.execCorrupt9 code s
  | .lit10 index => Sys2Proof.Machine.execLit10 index s
  | .eof10 => Sys2Proof.Machine.execEof10 s
  | .reset10 => Sys2Proof.Machine.execReset10 s
  | .dict10 code => Sys2Proof.Machine.execDict10 code s
  | .kwkwk10 code => Sys2Proof.Machine.execKwkwk10 code s
  | .corrupt10 code => Sys2Proof.Machine.execCorrupt10 code s
  | .lit11 index => Sys2Proof.Machine.execLit11 index s
  | .eof11 => Sys2Proof.Machine.execEof11 s
  | .reset11 => Sys2Proof.Machine.execReset11 s
  | .dict11 code => Sys2Proof.Machine.execDict11 code s
  | .kwkwk11 code => Sys2Proof.Machine.execKwkwk11 code s
  | .corrupt11 code => Sys2Proof.Machine.execCorrupt11 code s
  | .lit12 index => Sys2Proof.Machine.execLit12 index s
  | .eof12 => Sys2Proof.Machine.execEof12 s
  | .reset12 => Sys2Proof.Machine.execReset12 s
  | .dict12 code => Sys2Proof.Machine.execDict12 code s
  | .kwkwk12 code => Sys2Proof.Machine.execKwkwk12 code s
  | .corrupt12 code => Sys2Proof.Machine.execCorrupt12 code s
  | .init source => Sys2Proof.Machine.execInit source s
  | .step => Sys2Proof.Machine.execStep s
  | .sync => Sys2Proof.Machine.execSync s
  | .readBits n => Sys2Proof.Machine.execReadBits n s

end Sys2Proof.Machine
end

