-- ==== Sys2Proof/Machine/Fetch.lean ====
section
/-! DEFINITION. Taking the next command the host has issued, and the state in which a given table word is
the next instruction to run. -/

namespace Sys2Proof.Machine

/-- The command is taken from the list of those issued. -/
def State.withPending (s : State) (cs : List Command) : State := { s with pending := cs }

/-- One command is taken and run. A word that is no command is refused (R51, R78). -/
def runCommand (c : Command) (s : State) : Result :=
  match decodeCommand c.word c.arg with
  | .ok i => exec i s
  | .error _ => .next s.refuse

/-- The mode an instance must have been built with for a command to be legal in it (R51). -/
def modeFor (i : Instr) (m : CfgMode) : CfgMode :=
  match i with
  | .step => .decoder
  | .sync => .readerOnly
  | .readBits _ => .readerOnly
  | _ => m

/-- The command word `w` placed as the next command, on an instance that has its INIT and the mode in which
the command is legal (log entry 8). -/
def State.placeCommand (s : State) (w : Nat) : State :=
  let word := BitVec.ofNat 8 w
  match decodeCommand word [] with
  | .ok i => { s with pending := ⟨word, []⟩ :: s.pending, cfgMode := modeFor i s.cfgMode, inited := true }
  | .error _ => { s with pending := ⟨word, []⟩ :: s.pending }

/-- A dictionary of the length at which `decodeTableWord` classifies a code word of this width. -/
def tableDict (w : Width) : List Bytes :=
  initialDict ++ List.replicate (w.leastLen - Config.firstDynamic) [0#8, 0#8]

/-- The code word `code` of format `f` placed as the next instruction: its bits are the source, the cursor
is at its first bit, the width names the format, the phase is live, and the next command is STEP (log
entry 8). -/
def State.placeCode (s : State) (f : Width) (code : Nat) : State :=
  { s with
    cfgMode := .decoder
    inited := true
    reader := ⟨[BitVec.ofNat 8 code, BitVec.ofNat 8 (code / 256)], 0, 0, 0#8⟩
    width := f
    dict := if s.dict.length = f.leastLen then s.dict else tableDict f
    phase := if s.phase.live then s.phase else phaseAfter s.prev
    err := if s.phase.live then s.err else .none
    pending := ⟨0x40#8, []⟩ :: s.pending }

end Sys2Proof.Machine
end

