-- ==== Sys2Proof/Machine/Step.lean ====
section
/-! DEFINITION. One step of the machine: the oldest command the host has issued is taken and run, as one
atomic transition (R8). With none issued the block does nothing (log entry 3). -/

namespace Sys2Proof.Machine

/-- One step. -/
def step (s : State) : Host.Outcome State Fault Refusal :=
  match s.pending with
  | [] => .next s
  | c :: cs => runCommand c (s.withPending cs)

/-- `s` with the table word `w` placed so that the next step runs exactly its instruction (log entry 8). -/
def State.withFetchWord (s : State) (nbits w : Nat) : State :=
  if nbits = 8 then s.placeCommand w
  else
    match formatOf nbits w with
    | some f => s.placeCode f w
    | none => s

end Sys2Proof.Machine
end

