-- ==== Sys2Proof/Machine/Run.lean ====
section
/-! DEFINITION. The decode run of R73: INIT over a source, then STEP until End or Error, and the
DecodedBuffer of R29. -/

namespace Sys2Proof.Machine

/-- How a decode run ends (R73). -/
inductive RunEnd where
  | terminated
  | failed (e : ErrRecord)
deriving DecidableEq, Repr

/-- STEP issued up to `k` times, until its outcome is End or Error; `buffer` holds the chunks so far (R73,
R74). No answer where `k` STEPs do not end the run, or where a STEP gives none of the three outcomes. -/
def drain : Nat → State → Bytes → Option (Bytes × RunEnd)
  | 0, _, _ => none
  | k + 1, s, buffer =>
    match exec .step s with
    | .next s' =>
      match s'.outcomes with
      | .chunk c :: _ => drain k s' (buffer ++ c)
      | .finished :: _ => some (buffer, .terminated)
      | .error e :: _ => some (buffer, .failed e)
      | _ => none
    | _ => none

/-- The most STEPs a run over this source takes: `floor(8*len(S)/9) + 1` (R75). -/
def runBound (source : Bytes) : Nat := 8 * source.length / 9 + 1

/-- A decode run over `source` that begins in state `s`: INIT, then STEPs (R73). -/
def decodeFrom (s : State) (source : Bytes) : Option (Bytes × RunEnd) :=
  match exec (.init source) s with
  | .next s' => drain (runBound source) s' []
  | _ => none

/-- `Decode(S)` of a newly built DECODER instance (R73). -/
def decodeRun (source : Bytes) : Option (Bytes × RunEnd) := decodeFrom (State.preInit .decoder) source

/-- The bit position (R15) after the last STEP of a run that begins in state `s`, of `k` STEPs at most. -/
def drainPosition : Nat → State → Nat
  | 0, s => s.reader.bitpos
  | k + 1, s =>
    match exec .step s with
    | .next s' =>
      match s'.outcomes with
      | .chunk _ :: _ => drainPosition k s'
      | _ => s'.reader.bitpos
    | _ => s.reader.bitpos

/-- Where the decode run over `source` leaves the bit position: with a run that terminates, right after the
last bit of its EOF code word (R15, R64). -/
def runPosition (source : Bytes) : Nat :=
  match exec (.init source) (State.preInit .decoder) with
  | .next s => drainPosition (runBound source) s
  | _ => 0

/-- The chunks emitted since the last INIT, in emission order, from outcomes newest first. -/
def chunksSinceInit : List CmdOutcome → Bytes
  | [] => []
  | .chunk c :: rest => chunksSinceInit rest ++ c
  | .done :: _ => []
  | .finished :: rest => chunksSinceInit rest
  | .value _ :: rest => chunksSinceInit rest
  | .error _ :: rest => chunksSinceInit rest

/-- The DecodedBuffer of the current input (R29, R73). -/
def State.decodedBuffer (s : State) : Bytes := chunksSinceInit s.outcomes

end Sys2Proof.Machine
end

