-- ==== Sys2Proof/Safety.lean ====
section
/-! DEFINITION. What a legal state is, between operations: the invariants that the rules of spec/10_state.md
and spec/20_memory.md give the cursor, the dictionary, the width, `prev`, `phase` and `err`. -/

namespace Sys2Proof.Machine

/-- The reader's state between operations (R11, R12, R13, R14). -/
structure CursorInv (c : BitCursor) : Prop where
  /-- The position counts bytes taken, and there are no more than the source holds. -/
  pos_le : c.srcPos ≤ c.srcBytes.length
  /-- The residual counter is 3 bits wide. -/
  count_le : c.rcount ≤ 7
  /-- No bit above the residual ones is set; in particular the value is 0 where none is left. -/
  value_lt : c.rvalue.toNat < 2 ^ c.rcount
  /-- The residual bits are the high bits of the last byte taken, right-aligned. -/
  value_eq : 0 < c.rcount →
    1 ≤ c.srcPos ∧ ∃ b, c.srcBytes[c.srcPos - 1]? = some b ∧ c.rvalue = b >>> (8 - c.rcount)

/-- `w` is the smallest width in 9..12 with `len <= 2^w` (R16). -/
structure WidthFits (w : Width) (len : Nat) : Prop where
  fits : len ≤ 2 ^ w.bits
  least : ∀ w' : Width, len ≤ 2 ^ w'.bits → w.bits ≤ w'.bits

/-- The dictionary between operations (R16 to R20). -/
structure DictInv (s : State) : Prop where
  /-- R17: the length. -/
  len_ge : 258 ≤ s.dict.length
  len_le : s.dict.length ≤ 4095
  /-- R18, R19: the literals and the two placeholders, as initialised. -/
  head_eq : s.dict.take 258 = initialDict
  /-- R20: a dynamic entry has at least 2 bytes, and entry `k` at most `k - 256`. -/
  dynamic_len : ∀ k e, 258 ≤ k → s.dict[k]? = some e → 2 ≤ e.length ∧ e.length ≤ k - 256
  /-- While the dictionary can grow, the next entry will keep R20: this is the induction that R20 names. -/
  prev_len : s.dict.length < 4095 → s.prev.length ≤ s.dict.length - 257
  /-- R16. -/
  width_fits : WidthFits s.width s.dict.length

/-- The legal states between operations: reader, dictionary, phase (R22) and error record (R23). -/
structure State.Inv (s : State) : Prop where
  cursor : CursorInv s.reader
  dictionary : DictInv s
  /-- R22: in a live phase, `JUST_RESET` exactly when `prev` is empty. -/
  phase_prev : s.phase.live = true → (s.phase = .justReset ↔ s.prev = [])
  /-- R23: an error is recorded exactly in FAILED. -/
  err_phase : s.err ≠ .none ↔ s.phase = .failed

/-- A code that names a readable entry of the dictionary: not a control placeholder (R28). -/
def readableCode (s : State) (j : Nat) : Prop := j < s.dict.length ∧ j ≠ 256 ∧ j ≠ 257

/-- The dictionary's prefix structure (R41): every dynamic entry is an earlier readable entry and one byte,
and while the dictionary can grow a previous sequence that is not empty is itself an entry. -/
structure PrefixClosed (s : State) : Prop where
  entries : ∀ k e, 258 ≤ k → s.dict[k]? = some e →
    ∃ j b p, j < k ∧ j ≠ 256 ∧ j ≠ 257 ∧ s.dict[j]? = some p ∧ e = p ++ [b]
  previous : s.dict.length < 4095 → s.prev ≠ [] → ∃ j, readableCode s j ∧ s.dict[j]? = some s.prev

/-- The state after a data code that yields `cur`, field by field: one entry appended where `prev` is not
empty and the dictionary has fewer than 4095 entries (R70), the width one greater where the new length
exceeds what it can index (R71), then `prev`, `phase` and the chunk (R72). -/
def State.afterData (s : State) (cur : Bytes) : State :=
  let grows := s.prev ≠ [] ∧ s.dict.length < 4095
  { s with
    dict := if grows then s.dict ++ [s.prev ++ cur.take 1] else s.dict
    width := if grows ∧ 2 ^ s.width.bits < s.dict.length + 1 ∧ s.width.bits < 12 then s.width.succ
      else s.width
    prev := cur
    phase := if cur = [] then .justReset else .active
    outcomes := .chunk cur :: s.outcomes }

/-- The state after a failure with error record `e` (R87). -/
def State.afterFailure (s : State) (e : ErrRecord) : State :=
  { s with err := e, phase := .failed, outcomes := .error e :: s.outcomes }

/-- The state after the EOF code (R64). -/
def State.afterEof (s : State) : State :=
  { s with phase := .exhausted, outcomes := .finished :: s.outcomes }

/-- The state after the RESET code (R65). -/
def State.afterReset (s : State) : State :=
  { s with width := .w9, dict := initialDict, prev := [], phase := .justReset
           outcomes := .chunk [] :: s.outcomes }

/-- The value of the `n` stream bits from position `p` on, the first at bit 0 (R42). -/
def streamSum (src : Bytes) (p n : Nat) : Nat :=
  ∑ i ∈ Finset.range n, if streamBit src (p + i) then 2 ^ i else 0

/-- The cursor has `n` more bits to give (R42). -/
abbrev BitCursor.has (c : BitCursor) (n : Nat) : Prop := c.bitpos + n ≤ c.srcBits

end Sys2Proof.Machine
end

