-- ==== Sys2Proof/Certificates/Slice0/Obligations.lean ====
section
/-! DEFINITION. The statements about the model, one definition each. Those with a rule in their docstring
formalise that rule; those that name a log entry state a choice of the model's. -/

open Sys2Proof Sys2Proof.Machine

/-! ### Reset and the initial dictionary -/

/-- R93: INIT(S), in either mode and at any time, writes the reader, the dictionary, `prev`, `phase` and `err`,
answers Done, and leaves `cfg_mode` and the refusal mark (and the commands not yet taken). -/
def Obligations.InitBeginsANewInput : Prop :=
  ∀ (source : Bytes) (s : State), exec (.init source) s = .next
    { cfgMode := s.cfgMode, inited := true, refusalMark := s.refusalMark
      reader := { srcBytes := source, srcPos := 0, rcount := 0, rvalue := 0#8 }
      width := .w9, dict := initialDict, prev := [], phase := .justReset, err := .none
      pending := s.pending, outcomes := .done :: s.outcomes }

/-- The model's choice of log entry 1: its reset state is a new DECODER instance after INIT of the empty
sequence. -/
def Obligations.ResetIsInitOfTheEmptySource : Prop :=
  exec (.init []) (State.preInit .decoder) = .next State.reset

/-- R61: literal entry `i` is the one byte `(i >> 3) | ((i & 7) << 5)`; its bits, the bijection with inverse
`rotl8`, and the rule's examples. -/
def Obligations.LiteralEntryPermutation : Prop :=
  (∀ i : BitVec 8, initialDict[i.toNat]? = some [rotr8 i 3] ∧
    rotr8 i 3 = (i >>> 3) ||| ((i &&& 7#8) <<< 5) ∧
    (rotr8 i 3).extractLsb' 5 3 = i.extractLsb' 0 3 ∧
    (rotr8 i 3).extractLsb' 0 5 = i.extractLsb' 3 5 ∧
    rotl8 (rotr8 i 3) 3 = i ∧ rotr8 (rotl8 i 3) 3 = i) ∧
  Function.Bijective (fun i : BitVec 8 => rotr8 i 3) ∧
  rotr8 0x41#8 3 = 0x28#8 ∧ rotr8 0x42#8 3 = 0x48#8 ∧ rotr8 0x01#8 3 = 0x20#8 ∧
  rotr8 0x08#8 3 = 0x01#8 ∧ rotr8 0x00#8 3 = 0x00#8 ∧ rotr8 0xFF#8 3 = 0xFF#8

/-- Entries 256 and 257 of the initial dictionary are empty placeholders, and 258 is the first free index (R19).
That the model's dictionary read answers nothing for them is its own guard (log entry 7). -/
def Obligations.ControlPlaceholdersNeverRead : Prop :=
  initialDict.length = 258 ∧ initialDict[256]? = some [] ∧ initialDict[257]? = some [] ∧
  ∀ s : State, s.dictRead 256 = none ∧ s.dictRead 257 = none

/-- R80: entry `i` is `rotate_right(i, 3 bits)` (bits [2:0] of `i` become bits [7:5]) after every INIT and every
RESET, and from then on, since every step keeps it. -/
def Obligations.LiteralEntriesNeverChange : Prop :=
  (∀ (source : Bytes) (s t : State), exec (.init source) s = .next t →
    ∀ i : BitVec 8, t.dict[i.toNat]? = some [rotr8 i 3]) ∧
  (∀ s t : State, exec .reset9 s = .next t ∨ exec .reset10 s = .next t ∨ exec .reset11 s = .next t ∨
      exec .reset12 s = .next t → ∀ i : BitVec 8, t.dict[i.toNat]? = some [rotr8 i 3]) ∧
  (∀ s t : State, (∀ i : BitVec 8, s.dict[i.toNat]? = some [rotr8 i 3]) → step s = .next t →
    ∀ i : BitVec 8, t.dict[i.toNat]? = some [rotr8 i 3]) ∧
  ∀ i : BitVec 8, (rotr8 i 3).extractLsb' 5 3 = i.extractLsb' 0 3

/-! ### The reader -/

/-- R42: a read of `n` bits answers the sum of `streambit(p + i) * 2^i` from the bit position on, exactly
where all `n` bits lie inside the source; it moves the position on by `n` and keeps the cursor's invariant. -/
def Obligations.ReadBitsReturnsTheNextStreamBits : Prop :=
  ∀ (n : Nat) (c : BitCursor), 1 ≤ n → n ≤ 32 → CursorInv c →
    (c.has n → ∃ t, readBits n c = (.value (streamSum c.srcBytes c.bitpos n), t) ∧
      t.srcBytes = c.srcBytes ∧ t.bitpos = c.bitpos + n ∧ CursorInv t) ∧
    (¬c.has n → ∀ v, (readBits n c).1 ≠ .value v)

/-- The failing read of R56: EndOfStream names the bits asked for and the bits that were left, and the cursor
ends empty at the end of the source. -/
def Obligations.ReadBitsPastTheEndFails : Prop :=
  ∀ (n : Nat) (c : BitCursor), 1 ≤ n → n ≤ 32 → CursorInv c → ¬c.has n →
    readBits n c = (.endOfStream n (c.srcBits - c.bitpos),
      { srcBytes := c.srcBytes, srcPos := c.srcBytes.length, rcount := 0, rvalue := 0#8 })

/-- The rest of R56 for READER_ONLY mode: after an EndOfStream every later READ_BITS raises it again with no
bit obtained, and SYNC does nothing to the cursor. That `err` and `phase` stay is the model's reading (log
entry 16). -/
def Obligations.ReaderStaysAtTheEnd : Prop :=
  ∀ (n : Nat) (s : State), s.inited = true → s.cfgMode = .readerOnly → 1 ≤ n → n ≤ 32 →
    s.reader.srcPos = s.reader.srcBytes.length → s.reader.rcount = 0 → s.reader.rvalue = 0#8 →
    exec (.readBits n) s = .next { s with outcomes := .error (.endOfStream n 0) :: s.outcomes } ∧
    exec .sync s = .next { s with outcomes := .done :: s.outcomes }

/-- The invariant of R14 holds of a new cursor, and every reader operation keeps it. -/
def Obligations.ReaderKeepsTheCursorInvariant : Prop :=
  (∀ source : Bytes, CursorInv { srcBytes := source, srcPos := 0, rcount := 0, rvalue := 0#8 }) ∧
  ∀ c : BitCursor, CursorInv c →
    CursorInv (syncCursor c) ∧ ∀ n : Nat, CursorInv (readBits n c).2

/-- R34's consequence: between operations the bytes taken are just those that the bit position needs. -/
def Obligations.LookaheadIsAtMostOneByte : Prop :=
  ∀ c : BitCursor, CursorInv c → c.srcPos = (c.bitpos + 7) / 8

/-- R31: a code word takes its low-order bits from the earlier byte: a 9-bit code at stream bit 0, and a
12-bit code at stream bit 4. -/
def Obligations.CodeWordsSpanBytesLowBitsFirst : Prop :=
  ∀ b0 b1 : Byte,
    (readBits 9 { srcBytes := [b0, b1], srcPos := 0, rcount := 0, rvalue := 0#8 }).1 =
      .value (b0.toNat + 256 * (b1.toNat % 2)) ∧
    (readBits 12 (readBits 4 { srcBytes := [b0, b1], srcPos := 0, rcount := 0, rvalue := 0#8 }).2).1 =
      .value (b0.toNat / 16 + 16 * b1.toNat)

/-- A stream packed as R50 says reads back: the code words, read in order at their widths, are the codes that
were packed. -/
def Obligations.PackedCodesReadBack : Prop :=
  ∀ (before after : List (Width × Nat)) (w : Width) (code : Nat) (c : BitCursor),
    code < 2 ^ w.bits → CursorInv c →
    c.srcBytes = packCodes (before ++ (w, code) :: after) →
    c.bitpos = (before.map fun x => x.1.bits).sum →
    (readBits w.bits c).1 = .value code

/-! ### Commands, refusal and the step -/

/-- R51: the command words. Bits [7:6] name the command, bits [5:0] must be 0 but for READ_BITS, whose bit 5
must be 0 and whose bits [4:0] are n - 1; a word with a must-be-0 bit set is no command. That an argument
beside a command other than INIT changes nothing is the model's choice of log entry 13. -/
def Obligations.CommandWordTable : Prop :=
  ∀ arg : Bytes,
    decodeCommand 0x00#8 arg = .ok (.init arg) ∧
    decodeCommand 0x40#8 arg = .ok .step ∧
    decodeCommand 0x80#8 arg = .ok .sync ∧
    (∀ n, 1 ≤ n → n ≤ 32 → decodeCommand (BitVec.ofNat 8 (0xC0 + (n - 1))) arg = .ok (.readBits n)) ∧
    (∀ word : BitVec 8, word.toNat < 0xC0 → word.toNat % 64 ≠ 0 →
      decodeCommand word arg = .error (.mustBeZero word)) ∧
    (∀ word : BitVec 8, 0xE0 ≤ word.toNat → decodeCommand word arg = .error (.mustBeZero word))

/-- A command word that decodes stands for one well-formed command, whose encoding is that word again (R51). -/
def Obligations.CommandWordsEncodeBack : Prop :=
  ∀ (word : BitVec 8) (arg : Bytes) (i : Instr), decodeCommand word arg = .ok i →
    i.wf = true ∧
    encode i = .command word (match i with | .init source => source | _ => []) ∧
    (∀ source, i = .init source → source = arg)

/-- A step takes the oldest command issued and runs it: exec of the decoded instruction on the state without
that command. A word that is no command is refused: only the mark is set (R78). With no command issued the
step changes nothing (the model's choice of log entry 3). -/
def Obligations.StepRunsTheIssuedCommand : Prop :=
  ∀ s : State,
    (s.pending = [] → step s = .next s) ∧
    (∀ (c : Command) (cs : List Command) (i : Instr), s.pending = c :: cs →
      decodeCommand c.word c.arg = .ok i → step s = exec i { s with pending := cs }) ∧
    (∀ (c : Command) (cs : List Command) (e : DecodeReject), s.pending = c :: cs →
      decodeCommand c.word c.arg = .error e →
      step s = .next { s with pending := cs, refusalMark := true })

/-- Every step answers a next state, whatever the state: no command is left hanging or stopped (R75: the
block has no hang; R78: a refused command leaves a state too). That a step with no command issued answers
one too is the model's choice of log entry 3. -/
def Obligations.EveryStepAnswers : Prop := ∀ s : State, ∃ t : State, step s = .next t

/-- R95 and the modes of R51: STEP outside DECODER mode, SYNC and READ_BITS outside READER_ONLY mode, and each
of them before the first INIT, set the refusal mark and change nothing else (R78). -/
def Obligations.IllegalCommandsAreRefused : Prop :=
  ∀ s : State,
    (¬(s.inited = true ∧ s.cfgMode = .decoder) →
      exec .step s = .next { s with refusalMark := true }) ∧
    (¬(s.inited = true ∧ s.cfgMode = .readerOnly) →
      exec .sync s = .next { s with refusalMark := true } ∧
      ∀ n, exec (.readBits n) s = .next { s with refusalMark := true })

/-- R55: READ_BITS of a count outside 1 to 32 is refused, the command words cannot express one, and STEP never
asks for one. -/
def Obligations.ReadBitsCountOutOfRangeRefused : Prop :=
  (∀ (n : Nat) (s : State), n < 1 ∨ 32 < n →
    exec (.readBits n) s = .next { s with refusalMark := true }) ∧
  (∀ (word : BitVec 8) (arg : Bytes) (n : Nat), decodeCommand word arg = .ok (.readBits n) →
    1 ≤ n ∧ n ≤ 32) ∧
  (∀ w : Width, 1 ≤ w.bits ∧ w.bits ≤ 32)

/-- No instruction changes `cfg_mode` (R10) or clears the refusal mark (R78) or takes INIT back, and one that
sets the mark changes nothing else (R78); the commands issued are the host's. -/
def Obligations.ConfigurationAndMarkPersist : Prop :=
  ∀ (i : Instr) (s t : State), exec i s = .next t →
    t.cfgMode = s.cfgMode ∧ t.pending = s.pending ∧
    (s.refusalMark = true → t.refusalMark = true) ∧
    (s.inited = true → t.inited = true) ∧
    (t.refusalMark ≠ s.refusalMark → t = { s with refusalMark := true })

/-- R57: SYNC discards the residual bits and answers Done, changing nothing else; it moves the bit position to
the next multiple of 8, and with no residual bits it leaves the cursor as it is. -/
def Obligations.SyncDiscardsThePartialByte : Prop :=
  ∀ s : State, s.inited = true → s.cfgMode = .readerOnly →
    exec .sync s = .next
      { s with reader := { s.reader with rcount := 0, rvalue := 0#8 }, outcomes := .done :: s.outcomes } ∧
    (CursorInv s.reader →
      (syncCursor s.reader).bitpos = 8 * ((s.reader.bitpos + 7) / 8) ∧
      (s.reader.rcount = 0 → syncCursor s.reader = s.reader))

/-- READ_BITS of 1 to 32 bits that the source still holds answers their value, moves the bit position on by
`n`, and changes nothing but the reader (R54). -/
def Obligations.ReadBitsCommandAnswersItsValue : Prop :=
  ∀ (n : Nat) (s : State), s.inited = true → s.cfgMode = .readerOnly → 1 ≤ n → n ≤ 32 →
    CursorInv s.reader → s.reader.has n →
    ∃ c : BitCursor, c.srcBytes = s.reader.srcBytes ∧ c.bitpos = s.reader.bitpos + n ∧ CursorInv c ∧
      exec (.readBits n) s = .next
        { s with reader := c
                 outcomes := .value (streamSum s.reader.srcBytes s.reader.bitpos n) :: s.outcomes }

/-- READ_BITS of more bits than the source still holds answers the error and empties the cursor; `err` and
`phase` stay, since failure entry is STEP's (R56, log entry 16). -/
def Obligations.ReadBitsCommandPastTheEnd : Prop :=
  ∀ (n : Nat) (s : State), s.inited = true → s.cfgMode = .readerOnly → 1 ≤ n → n ≤ 32 →
    CursorInv s.reader → ¬s.reader.has n →
    exec (.readBits n) s = .next
      { s with
        reader := { srcBytes := s.reader.srcBytes, srcPos := s.reader.srcBytes.length
                    rcount := 0, rvalue := 0#8 }
        outcomes := .error (.endOfStream n (s.reader.srcBits - s.reader.bitpos)) :: s.outcomes }

/-! ### STEP -/

/-- R63: STEP in EXHAUSTED emits End again and in FAILED the recorded error again, and changes nothing else. -/
def Obligations.StepAfterTheEndRepeats : Prop :=
  ∀ s : State, s.inited = true → s.cfgMode = .decoder →
    (s.phase = .exhausted → exec .step s = .next { s with outcomes := .finished :: s.outcomes }) ∧
    (s.phase = .failed → exec .step s = .next { s with outcomes := .error s.err :: s.outcomes })

/-- A STEP in a live phase reads exactly `width` bits and runs the instruction that R45 makes of them at the
dictionary's length, on the state after the read: no realignment, no byte more (R49, R58, R62). -/
def Obligations.StepRunsTheCodeWordItReads : Prop :=
  ∀ s : State, s.stepping = true → CursorInv s.reader → s.reader.has s.width.bits →
    ∃ c : BitCursor, c.srcBytes = s.reader.srcBytes ∧ c.bitpos = s.reader.bitpos + s.width.bits ∧
      CursorInv c ∧
      decode (.code s.width (streamSum s.reader.srcBytes s.reader.bitpos s.width.bits)) s.dict.length =
        .ok (codeInstr s.width (streamSum s.reader.srcBytes s.reader.bitpos s.width.bits) s.dict.length) ∧
      exec .step s =
        exec (codeInstr s.width (streamSum s.reader.srcBytes s.reader.bitpos s.width.bits) s.dict.length)
          { s with reader := c }

/-- R85 and R87 for a STEP whose code read runs past the end: END_OF_STREAM is recorded, the phase is FAILED,
the outcome is the error, the reader is at the end, and `dict`, `width` and `prev` are as they were. -/
def Obligations.StepTakesEndOfStream : Prop :=
  ∀ s : State, s.stepping = true → CursorInv s.reader → ¬s.reader.has s.width.bits →
    exec .step s = .next
      { s with
        reader := { srcBytes := s.reader.srcBytes, srcPos := s.reader.srcBytes.length
                    rcount := 0, rvalue := 0#8 }
        err := .endOfStream s.width.bits (s.reader.srcBits - s.reader.bitpos)
        phase := .failed
        outcomes := .error (.endOfStream s.width.bits (s.reader.srcBits - s.reader.bitpos)) :: s.outcomes }

/-- R62: STEP in DECODER mode is its pseudocode, for every state with a legal cursor: one equation over the
phase, the code read, and the classes in the order of the rule. -/
def Obligations.StepFollowsItsPseudocode : Prop :=
  ∀ s : State, s.inited = true → s.cfgMode = .decoder → CursorInv s.reader →
    ∃ c : BitCursor, c.srcBytes = s.reader.srcBytes ∧
      (s.reader.has s.width.bits → c.bitpos = s.reader.bitpos + s.width.bits ∧ CursorInv c) ∧
      (¬s.reader.has s.width.bits → c.srcPos = s.reader.srcBytes.length ∧ c.rcount = 0 ∧ c.rvalue = 0#8) ∧
      let r : State := { s with reader := c }
      let code := streamSum s.reader.srcBytes s.reader.bitpos s.width.bits
      let len := s.dict.length
      (s.phase = .exhausted → exec .step s = .next { s with outcomes := .finished :: s.outcomes }) ∧
      (s.phase = .failed → exec .step s = .next { s with outcomes := .error s.err :: s.outcomes }) ∧
      (s.phase.live = true → ¬s.reader.has s.width.bits →
        exec .step s = .next
          (r.afterFailure (.endOfStream s.width.bits (s.reader.srcBits - s.reader.bitpos)))) ∧
      (s.phase.live = true → s.reader.has s.width.bits →
        exec .step s = .next
          (if code = 256 then r.afterEof
           else if code = 257 then r.afterReset
           else if code = len then r.afterData (s.prev ++ s.prev.take 1)
           else if code < len then r.afterData (s.dict[code]?.getD [])
           else r.afterFailure (.corruptStream code len s.width.bits)))

/-! ### Code words -/

/-- R66 for every format: a literal yields the one byte `rotr8(c, 3)`; what is appended, the width, `prev` and
the phase follow R70 to R72, and nothing else changes. The literals are in the dictionary (R18). -/
def Obligations.LitYieldsItsLiteral : Prop :=
  ∀ (s : State) (i : BitVec 8), s.stepping = true → s.dict.take 258 = initialDict →
    (s.width = .w9 → exec (.lit9 i) s = .next (s.afterData [rotr8 i 3])) ∧
    (s.width = .w10 → exec (.lit10 i) s = .next (s.afterData [rotr8 i 3])) ∧
    (s.width = .w11 → exec (.lit11 i) s = .next (s.afterData [rotr8 i 3])) ∧
    (s.width = .w12 → exec (.lit12 i) s = .next (s.afterData [rotr8 i 3]))

/-- R64 for every format: EOF sets the phase EXHAUSTED and emits End; nothing else changes. -/
def Obligations.EofEndsTheSequence : Prop :=
  ∀ s : State, s.stepping = true →
    (s.width = .w9 → exec .eof9 s =
      .next { s with phase := .exhausted, outcomes := .finished :: s.outcomes }) ∧
    (s.width = .w10 → exec .eof10 s =
      .next { s with phase := .exhausted, outcomes := .finished :: s.outcomes }) ∧
    (s.width = .w11 → exec .eof11 s =
      .next { s with phase := .exhausted, outcomes := .finished :: s.outcomes }) ∧
    (s.width = .w12 → exec .eof12 s =
      .next { s with phase := .exhausted, outcomes := .finished :: s.outcomes })

/-- R65 for every format: RESET re-initialises the decoder, emits an empty chunk and leaves the reader where
the code word ended; nothing else changes. -/
def Obligations.ResetReinitialisesTheDecoder : Prop :=
  ∀ s : State, s.stepping = true →
    (s.width = .w9 → exec .reset9 s = .next
      { s with width := .w9, dict := initialDict, prev := [], phase := .justReset
               outcomes := .chunk [] :: s.outcomes }) ∧
    (s.width = .w10 → exec .reset10 s = .next
      { s with width := .w9, dict := initialDict, prev := [], phase := .justReset
               outcomes := .chunk [] :: s.outcomes }) ∧
    (s.width = .w11 → exec .reset11 s = .next
      { s with width := .w9, dict := initialDict, prev := [], phase := .justReset
               outcomes := .chunk [] :: s.outcomes }) ∧
    (s.width = .w12 → exec .reset12 s = .next
      { s with width := .w9, dict := initialDict, prev := [], phase := .justReset
               outcomes := .chunk [] :: s.outcomes })

/-- R67 for every format: a code from 258 on, below the dictionary's length, yields its entry; growth, width,
`prev` and phase follow R70 to R72, and nothing else changes. -/
def Obligations.DictYieldsItsEntry : Prop :=
  ∀ (s : State) (cur : Bytes), s.stepping = true →
    (∀ c : BitVec 9, s.width = .w9 → 258 ≤ c.toNat → s.dict[c.toNat]? = some cur →
      exec (.dict9 c) s = .next (s.afterData cur)) ∧
    (∀ c : BitVec 10, s.width = .w10 → 258 ≤ c.toNat → s.dict[c.toNat]? = some cur →
      exec (.dict10 c) s = .next (s.afterData cur)) ∧
    (∀ c : BitVec 11, s.width = .w11 → 258 ≤ c.toNat → s.dict[c.toNat]? = some cur →
      exec (.dict11 c) s = .next (s.afterData cur)) ∧
    (∀ c : BitVec 12, s.width = .w12 → 258 ≤ c.toNat → s.dict[c.toNat]? = some cur →
      exec (.dict12 c) s = .next (s.afterData cur))

/-- R68 for every format: the code equal to the dictionary's length yields `prev` and its own first byte, with
no dictionary read; where the dictionary grows, that sequence is then the entry at the code; nothing else
changes. -/
def Obligations.KwkwkCopiesThePreviousSequence : Prop :=
  ∀ s : State, s.stepping = true → 258 ≤ s.dict.length →
    (s.prev ≠ [] → s.dict.length < 4095 →
      (s.afterData (s.prev ++ s.prev.take 1)).dict[s.dict.length]? = some (s.prev ++ s.prev.take 1)) ∧
    (s.prev = [] ∨ 4095 ≤ s.dict.length →
      (s.afterData (s.prev ++ s.prev.take 1)).dict = s.dict) ∧
    (∀ c : BitVec 9, s.width = .w9 → c.toNat = s.dict.length →
      exec (.kwkwk9 c) s = .next (s.afterData (s.prev ++ s.prev.take 1))) ∧
    (∀ c : BitVec 10, s.width = .w10 → c.toNat = s.dict.length →
      exec (.kwkwk10 c) s = .next (s.afterData (s.prev ++ s.prev.take 1))) ∧
    (∀ c : BitVec 11, s.width = .w11 → c.toNat = s.dict.length →
      exec (.kwkwk11 c) s = .next (s.afterData (s.prev ++ s.prev.take 1))) ∧
    (∀ c : BitVec 12, s.width = .w12 → c.toNat = s.dict.length →
      exec (.kwkwk12 c) s = .next (s.afterData (s.prev ++ s.prev.take 1)))

/-- R69 and R87 for every format: a code above the dictionary's length takes CorruptStream: `err` records the
code, the length and the width, the phase is FAILED, the outcome is the error, and nothing else changes. -/
def Obligations.CorruptTakesTheFailure : Prop :=
  ∀ s : State, s.stepping = true → 258 ≤ s.dict.length →
    (∀ c : BitVec 9, s.width = .w9 → s.dict.length < c.toNat →
      exec (.corrupt9 c) s = .next
        { s with err := .corruptStream c.toNat s.dict.length 9, phase := .failed
                 outcomes := .error (.corruptStream c.toNat s.dict.length 9) :: s.outcomes }) ∧
    (∀ c : BitVec 10, s.width = .w10 → s.dict.length < c.toNat →
      exec (.corrupt10 c) s = .next
        { s with err := .corruptStream c.toNat s.dict.length 10, phase := .failed
                 outcomes := .error (.corruptStream c.toNat s.dict.length 10) :: s.outcomes }) ∧
    (∀ c : BitVec 11, s.width = .w11 → s.dict.length < c.toNat →
      exec (.corrupt11 c) s = .next
        { s with err := .corruptStream c.toNat s.dict.length 11, phase := .failed
                 outcomes := .error (.corruptStream c.toNat s.dict.length 11) :: s.outcomes }) ∧
    (∀ c : BitVec 12, s.width = .w12 → s.dict.length < c.toNat →
      exec (.corrupt12 c) s = .next
        { s with err := .corruptStream c.toNat s.dict.length 12, phase := .failed
                 outcomes := .error (.corruptStream c.toNat s.dict.length 12) :: s.outcomes })

/-- The model's choice of log entry 6: a code word that no STEP would run in this state (outside a live STEP,
at another width, or of another class by R45) stops by name. -/
def Obligations.UnselectedCodeWordStops : Prop :=
  ∀ (i : Instr) (w : Width) (code : Nat) (s : State), encode i = .code w code →
    ¬(s.stepping = true ∧ s.width = w ∧ codeInstr w code s.dict.length = i) →
    exec i s = .refused .notSelected

/-- No instruction ends in a fault, in any state (log entry 7). -/
def Obligations.NoInstructionFaults : Prop :=
  ∀ (i : Instr) (s : State) (f : Fault), exec i s ≠ .fault f

/-! ### Decoding -/

/-- R45 and the opcode map of R46: what selects each class, at every dictionary length from 258 on. -/
def Obligations.ClassificationFollowsTheOpcodeMap : Prop :=
  ∀ code len : Nat, 258 ≤ len →
    (classify code len = .lit ↔ code ≤ 255) ∧
    (classify code len = .eof ↔ code = 256) ∧
    (classify code len = .reset ↔ code = 257) ∧
    (classify code len = .dict ↔ 258 ≤ code ∧ code < len) ∧
    (classify code len = .kwkwk ↔ code = len) ∧
    (classify code len = .corrupt ↔ len < code)

/-- Decoding the encoding of a well-formed instruction gives it back, for every instruction and every operand,
at every dictionary length at which its row is selected. -/
def Obligations.DecodeOfEncodeIsTheInstruction : Prop :=
  ∀ (i : Instr) (len : Nat), i.wf = true → 258 ≤ len → i.selectedAt len = true →
    decode (encode i) len = .ok i

/-- The other direction for code words: every code value of a format decodes, to one well-formed instruction
whose row is selected and whose encoding is that code value again. -/
def Obligations.EncodeOfDecodedCodeWord : Prop :=
  ∀ (w : Width) (code len : Nat), 258 ≤ len → code < 2 ^ w.bits →
    ∃ i, decode (.code w code) len = .ok i ∧ i.wf = true ∧ i.selectedAt len = true ∧
      encode i = .code w code

/-- R47: at a length of `2^width` neither KWKWK nor CORRUPT can be read; otherwise the length itself is KWKWK and
every code above it CORRUPT; at width 12 code 4095 is KWKWK at length 4095, where nothing is CORRUPT, and
CORRUPT at length 4094. -/
def Obligations.ClassesAWidthCanExpress : Prop :=
  (∀ (w : Width) (len : Nat), 258 ≤ len → len ≤ 4095 → WidthFits w len →
    (len = 2 ^ w.bits → ∀ code, code < 2 ^ w.bits →
      classify code len ≠ .kwkwk ∧ classify code len ≠ .corrupt) ∧
    (len ≠ 2 ^ w.bits → len < 2 ^ w.bits ∧ classify len len = .kwkwk ∧
      ∀ code, len < code → code < 2 ^ w.bits → classify code len = .corrupt)) ∧
  classify 4095 4095 = .kwkwk ∧
  (∀ code, code < 4096 → classify code 4095 ≠ .corrupt) ∧
  classify 4095 4094 = .corrupt

/-- Code words and command words written out from R46 and R51 decode to the instructions they stand for, at
dictionary length 258 (and 513 for the DICT word). -/
def Obligations.SpelledOutWordsDecode : Prop :=
  decode (.code .w9 0b001000001) 258 = .ok (.lit9 0x41#8) ∧
  decode (.code .w9 0b100000000) 258 = .ok .eof9 ∧
  decode (.code .w12 0b000100000001) 258 = .ok .reset12 ∧
  decode (.code .w10 0b0100000010) 513 = .ok (.dict10 258#10) ∧
  decode (.code .w9 0b100000010) 258 = .ok (.kwkwk9 258#9) ∧
  decode (.code .w9 0b100000011) 258 = .ok (.corrupt9 259#9) ∧
  decodeCommand 0b00000000#8 [1#8] = .ok (.init [1#8]) ∧
  decodeCommand 0b01000000#8 [] = .ok .step ∧
  decodeCommand 0b10000000#8 [] = .ok .sync ∧
  decodeCommand 0b11000010#8 [] = .ok (.readBits 3)

/-! ### The dictionary, the width, the phase and the error record along a run -/

/-- R17, R70 and R81: a step from a legal state leaves the dictionary, appends the one entry `prev ++ [b]` to one
that is not full, or rebuilds it; it never changes an entry otherwise. -/
def Obligations.DictionaryIsAppendOnly : Prop :=
  ∀ s t : State, s.Inv → step s = .next t →
    t.dict = s.dict ∨
    (s.dict.length < 4095 ∧ s.prev ≠ [] ∧ ∃ b, t.dict = s.dict ++ [s.prev ++ [b]]) ∨
    (t.dict = initialDict ∧ t.width = .w9 ∧ t.prev = [] ∧ t.phase = .justReset)

/-- R71 and R82: from a legal state, a step that appends changes the width exactly where the new length is 513,
1025 or 2049, then by one; a step that leaves the length leaves the width. -/
def Obligations.WidthChangesOnlyPastItsRange : Prop :=
  ∀ s t : State, s.Inv → step s = .next t →
    (t.dict.length = s.dict.length + 1 →
      ((t.dict.length = 513 ∨ t.dict.length = 1025 ∨ t.dict.length = 2049) →
        t.width.bits = s.width.bits + 1) ∧
      (t.dict.length ≠ 513 → t.dict.length ≠ 1025 → t.dict.length ≠ 2049 → t.width = s.width)) ∧
    (t.dict.length = s.dict.length → t.width = s.width)

/-- R82, counted from an initialisation, with no RESET and no KWKWK on an empty `prev` (every chunk is non-empty):
after `k` data codes the dictionary holds `257 + k` entries until it is full at the 3838th, and the width
becomes 10 after the 256th, 11 after the 768th and 12 after the 1792nd. -/
def Obligations.DataCodesSinceInitialisation : Prop :=
  ∀ (f : Nat → State) (k : Nat), (f 0).Inv → (f 0).stepping = true → (f 0).dict = initialDict →
    (f 0).prev = [] → 1 ≤ k →
    (∀ j, j < k → exec .step (f j) = .next (f (j + 1)) ∧
      ∃ cur, cur ≠ [] ∧ (f (j + 1)).outcomes = .chunk cur :: (f j).outcomes) →
    (f k).dict.length = min 4095 (257 + k) ∧
    (f k).width.bits = if k < 256 then 9 else if k < 768 then 10 else if k < 1792 then 11 else 12

/-- R91: what a STEP makes of the phase, by the outcome it emits. -/
def Obligations.PhaseFollowsTheOutcome : Prop :=
  ∀ s t : State, s.inited = true → s.cfgMode = .decoder → exec .step s = .next t →
    (s.phase = .exhausted → t.phase = .exhausted) ∧
    (s.phase = .failed → t.phase = .failed) ∧
    (s.phase.live = true →
      ∃ o, t.outcomes = o :: s.outcomes ∧
        ((∃ cur, cur ≠ [] ∧ o = .chunk cur ∧ t.phase = .active) ∨
         (o = .chunk [] ∧ t.phase = .justReset) ∨
         (o = .finished ∧ t.phase = .exhausted) ∨
         (∃ e, e ≠ .none ∧ o = .error e ∧ t.phase = .failed ∧ t.err = e)))

/-- R89: FAILED is left only by INIT, which begins a new input; no other instruction changes the error record or
the decoder's state there, and STEP repeats the recorded error. -/
def Obligations.OnlyInitLeavesFailed : Prop :=
  (∀ (i : Instr) (s t : State), s.phase = .failed → exec i s = .next t → (∀ source, i ≠ .init source) →
    t.phase = .failed ∧ t.err = s.err ∧ t.dict = s.dict ∧ t.width = s.width ∧ t.prev = s.prev) ∧
  (∀ s : State, s.inited = true → s.cfgMode = .decoder → s.phase = .failed →
    exec .step s = .next { s with outcomes := .error s.err :: s.outcomes }) ∧
  ∀ (source : Bytes) (s : State), ∃ t, exec (.init source) s = .next t ∧ t.phase = .justReset ∧ t.err = .none

/-- R23: the error record changes only at entry into FAILED, to a cause, and at INIT, to NONE. -/
def Obligations.ErrorRecordWrittenOnlyAtFailure : Prop :=
  ∀ (i : Instr) (s t : State), exec i s = .next t → t.err ≠ s.err →
    (t.phase = .failed ∧ t.err ≠ .none ∧ s.phase.live = true) ∨
    (t.err = .none ∧ ∃ source, i = .init source)

/-- R83: from a legal state, a chunk that STEP emits is empty, one byte, 2 to 3838 bytes, or (on a full
dictionary) one byte longer than `prev`. -/
def Obligations.ChunkLengths : Prop :=
  ∀ (s t : State) (cur : Bytes), s.Inv → s.stepping = true → exec .step s = .next t →
    t.outcomes = .chunk cur :: s.outcomes →
    cur = [] ∨ cur.length = 1 ∨ (2 ≤ cur.length ∧ cur.length ≤ 3838) ∨
    (s.dict.length = 4095 ∧ cur.length = s.prev.length + 1)

/-- A STEP extends the DecodedBuffer by the chunk it emits and by nothing else, and INIT empties it (R29,
R73). -/
def Obligations.StepExtendsTheDecodedBuffer : Prop :=
  (∀ (source : Bytes) (s t : State), exec (.init source) s = .next t → t.decodedBuffer = []) ∧
  ∀ s t : State, s.inited = true → s.cfgMode = .decoder → exec .step s = .next t →
    ∃ o, t.outcomes = o :: s.outcomes ∧
      t.decodedBuffer = s.decodedBuffer ++ (match o with | .chunk cur => cur | _ => [])

/-! ### Invariants -/

/-- The model's reset state and its newly built instance of either mode are legal. The values of both are the
model's choice (log entries 1 and 2; R95 gives an instance before INIT none). -/
def Obligations.InvariantHoldsAtReset : Prop :=
  (State.reset.Inv ∧ PrefixClosed State.reset) ∧
  ∀ m : CfgMode, (State.preInit m).Inv ∧ PrefixClosed (State.preInit m)

/-- Every step keeps the invariants of R11 to R23: cursor, dictionary, entry lengths, width, phase and error
record. -/
def Obligations.EveryStepKeepsTheInvariant : Prop :=
  ∀ s t : State, s.Inv → step s = .next t → t.Inv

/-- Every step from a legal state keeps the prefix structure of R41: each dynamic entry is an earlier readable
entry and one byte. -/
def Obligations.EveryStepKeepsThePrefixStructure : Prop :=
  ∀ s t : State, s.Inv → PrefixClosed s → step s = .next t → PrefixClosed t

/-! ### Decode runs -/

/-- R75: every STEP in a live phase takes `width >= 9` bits, or raises EndOfStream on an exhausted source; so
a decode run over S ends, with End or Error, within `floor(8*len(S)/9) + 1` STEPs. -/
def Obligations.EveryDecodeRunEnds : Prop :=
  (∀ s : State, s.stepping = true → CursorInv s.reader → ∃ t, exec .step s = .next t ∧
    ((9 ≤ s.width.bits ∧ t.reader.bitpos = s.reader.bitpos + s.width.bits) ∨
     (∃ n o, t.outcomes = .error (.endOfStream n o) :: s.outcomes ∧
       t.reader.srcPos = s.reader.srcBytes.length))) ∧
  ∀ source : Bytes, ∃ s r, exec (.init source) (State.preInit .decoder) = .next s ∧
    drain (8 * source.length / 9 + 1) s [] = some r ∧ decodeRun source = some r

/-- R76 and R25: what a decode run gives depends on its source alone, not on what the instance did before. -/
def Obligations.DecodeIgnoresEarlierInputs : Prop :=
  ∀ (s : State) (source : Bytes), s.cfgMode = .decoder → decodeFrom s source = decodeRun source

/-- R98: data after the EOF code word is never read. A second source that has the stream bits of the first up
to where a terminated run leaves it, and anything after them (the remaining bits of that byte, any later
byte, or none), gives the same run and is left at the same bit. -/
def Obligations.TrailingDataNeverRead : Prop :=
  ∀ (source other buffer : Bytes), decodeRun source = some (buffer, .terminated) →
    (∀ k, k < runPosition source → k < 8 * other.length ∧ streamBit other k = streamBit source k) →
    decodeRun other = some (buffer, .terminated) ∧ runPosition other = runPosition source
end

