-- ==== Sys2Proof/Laws/State.lean ====
section
/-! SUPPORT. What each named update of State does to each field: one lemma per field per update. -/

namespace Sys2Proof.Machine

/-! ### emit -/

@[simp] theorem emit_cfgMode (s : State) (o : CmdOutcome) : (s.emit o).cfgMode = s.cfgMode := rfl

@[simp] theorem emit_inited (s : State) (o : CmdOutcome) : (s.emit o).inited = s.inited := rfl

@[simp] theorem emit_refusalMark (s : State) (o : CmdOutcome) : (s.emit o).refusalMark = s.refusalMark := rfl

@[simp] theorem emit_reader (s : State) (o : CmdOutcome) : (s.emit o).reader = s.reader := rfl

@[simp] theorem emit_width (s : State) (o : CmdOutcome) : (s.emit o).width = s.width := rfl

@[simp] theorem emit_dict (s : State) (o : CmdOutcome) : (s.emit o).dict = s.dict := rfl

@[simp] theorem emit_prev (s : State) (o : CmdOutcome) : (s.emit o).prev = s.prev := rfl

@[simp] theorem emit_phase (s : State) (o : CmdOutcome) : (s.emit o).phase = s.phase := rfl

@[simp] theorem emit_err (s : State) (o : CmdOutcome) : (s.emit o).err = s.err := rfl

@[simp] theorem emit_pending (s : State) (o : CmdOutcome) : (s.emit o).pending = s.pending := rfl

@[simp] theorem emit_outcomes (s : State) (o : CmdOutcome) : (s.emit o).outcomes = o :: s.outcomes := rfl

/-! ### refuse -/

@[simp] theorem refuse_cfgMode (s : State) : (s.refuse).cfgMode = s.cfgMode := rfl

@[simp] theorem refuse_inited (s : State) : (s.refuse).inited = s.inited := rfl

@[simp] theorem refuse_refusalMark (s : State) : (s.refuse).refusalMark = true := rfl

@[simp] theorem refuse_reader (s : State) : (s.refuse).reader = s.reader := rfl

@[simp] theorem refuse_width (s : State) : (s.refuse).width = s.width := rfl

@[simp] theorem refuse_dict (s : State) : (s.refuse).dict = s.dict := rfl

@[simp] theorem refuse_prev (s : State) : (s.refuse).prev = s.prev := rfl

@[simp] theorem refuse_phase (s : State) : (s.refuse).phase = s.phase := rfl

@[simp] theorem refuse_err (s : State) : (s.refuse).err = s.err := rfl

@[simp] theorem refuse_pending (s : State) : (s.refuse).pending = s.pending := rfl

@[simp] theorem refuse_outcomes (s : State) : (s.refuse).outcomes = s.outcomes := rfl

/-! ### enterFailed -/

@[simp] theorem enterFailed_cfgMode (s : State) (e : ErrRecord) : (s.enterFailed e).cfgMode = s.cfgMode := rfl

@[simp] theorem enterFailed_inited (s : State) (e : ErrRecord) : (s.enterFailed e).inited = s.inited := rfl

@[simp] theorem enterFailed_refusalMark (s : State) (e : ErrRecord) : (s.enterFailed e).refusalMark = s.refusalMark := rfl

@[simp] theorem enterFailed_reader (s : State) (e : ErrRecord) : (s.enterFailed e).reader = s.reader := rfl

@[simp] theorem enterFailed_width (s : State) (e : ErrRecord) : (s.enterFailed e).width = s.width := rfl

@[simp] theorem enterFailed_dict (s : State) (e : ErrRecord) : (s.enterFailed e).dict = s.dict := rfl

@[simp] theorem enterFailed_prev (s : State) (e : ErrRecord) : (s.enterFailed e).prev = s.prev := rfl

@[simp] theorem enterFailed_phase (s : State) (e : ErrRecord) : (s.enterFailed e).phase = .failed := rfl

@[simp] theorem enterFailed_err (s : State) (e : ErrRecord) : (s.enterFailed e).err = e := rfl

@[simp] theorem enterFailed_pending (s : State) (e : ErrRecord) : (s.enterFailed e).pending = s.pending := rfl

@[simp] theorem enterFailed_outcomes (s : State) (e : ErrRecord) : (s.enterFailed e).outcomes = .error e :: s.outcomes := rfl

/-! ### withReader -/

@[simp] theorem withReader_cfgMode (s : State) (c : BitCursor) : (s.withReader c).cfgMode = s.cfgMode := rfl

@[simp] theorem withReader_inited (s : State) (c : BitCursor) : (s.withReader c).inited = s.inited := rfl

@[simp] theorem withReader_refusalMark (s : State) (c : BitCursor) : (s.withReader c).refusalMark = s.refusalMark := rfl

@[simp] theorem withReader_reader (s : State) (c : BitCursor) : (s.withReader c).reader = c := rfl

@[simp] theorem withReader_width (s : State) (c : BitCursor) : (s.withReader c).width = s.width := rfl

@[simp] theorem withReader_dict (s : State) (c : BitCursor) : (s.withReader c).dict = s.dict := rfl

@[simp] theorem withReader_prev (s : State) (c : BitCursor) : (s.withReader c).prev = s.prev := rfl

@[simp] theorem withReader_phase (s : State) (c : BitCursor) : (s.withReader c).phase = s.phase := rfl

@[simp] theorem withReader_err (s : State) (c : BitCursor) : (s.withReader c).err = s.err := rfl

@[simp] theorem withReader_pending (s : State) (c : BitCursor) : (s.withReader c).pending = s.pending := rfl

@[simp] theorem withReader_outcomes (s : State) (c : BitCursor) : (s.withReader c).outcomes = s.outcomes := rfl

/-! ### dictAppend -/

@[simp] theorem dictAppend_cfgMode (s : State) (e : Bytes) : (s.dictAppend e).cfgMode = s.cfgMode := rfl

@[simp] theorem dictAppend_inited (s : State) (e : Bytes) : (s.dictAppend e).inited = s.inited := rfl

@[simp] theorem dictAppend_refusalMark (s : State) (e : Bytes) : (s.dictAppend e).refusalMark = s.refusalMark := rfl

@[simp] theorem dictAppend_reader (s : State) (e : Bytes) : (s.dictAppend e).reader = s.reader := rfl

@[simp] theorem dictAppend_width (s : State) (e : Bytes) : (s.dictAppend e).width = s.width := rfl

@[simp] theorem dictAppend_dict (s : State) (e : Bytes) : (s.dictAppend e).dict = s.dict ++ [e] := rfl

@[simp] theorem dictAppend_prev (s : State) (e : Bytes) : (s.dictAppend e).prev = s.prev := rfl

@[simp] theorem dictAppend_phase (s : State) (e : Bytes) : (s.dictAppend e).phase = s.phase := rfl

@[simp] theorem dictAppend_err (s : State) (e : Bytes) : (s.dictAppend e).err = s.err := rfl

@[simp] theorem dictAppend_pending (s : State) (e : Bytes) : (s.dictAppend e).pending = s.pending := rfl

@[simp] theorem dictAppend_outcomes (s : State) (e : Bytes) : (s.dictAppend e).outcomes = s.outcomes := rfl

/-! ### initDict -/

@[simp] theorem initDict_cfgMode (s : State) : (s.initDict).cfgMode = s.cfgMode := rfl

@[simp] theorem initDict_inited (s : State) : (s.initDict).inited = s.inited := rfl

@[simp] theorem initDict_refusalMark (s : State) : (s.initDict).refusalMark = s.refusalMark := rfl

@[simp] theorem initDict_reader (s : State) : (s.initDict).reader = s.reader := rfl

@[simp] theorem initDict_width (s : State) : (s.initDict).width = .w9 := rfl

@[simp] theorem initDict_dict (s : State) : (s.initDict).dict = initialDict := rfl

@[simp] theorem initDict_prev (s : State) : (s.initDict).prev = [] := rfl

@[simp] theorem initDict_phase (s : State) : (s.initDict).phase = .justReset := rfl

@[simp] theorem initDict_err (s : State) : (s.initDict).err = s.err := rfl

@[simp] theorem initDict_pending (s : State) : (s.initDict).pending = s.pending := rfl

@[simp] theorem initDict_outcomes (s : State) : (s.initDict).outcomes = s.outcomes := rfl

/-! ### withPending -/

@[simp] theorem withPending_cfgMode (s : State) (cs : List Command) : (s.withPending cs).cfgMode = s.cfgMode := rfl

@[simp] theorem withPending_inited (s : State) (cs : List Command) : (s.withPending cs).inited = s.inited := rfl

@[simp] theorem withPending_refusalMark (s : State) (cs : List Command) : (s.withPending cs).refusalMark = s.refusalMark := rfl

@[simp] theorem withPending_reader (s : State) (cs : List Command) : (s.withPending cs).reader = s.reader := rfl

@[simp] theorem withPending_width (s : State) (cs : List Command) : (s.withPending cs).width = s.width := rfl

@[simp] theorem withPending_dict (s : State) (cs : List Command) : (s.withPending cs).dict = s.dict := rfl

@[simp] theorem withPending_prev (s : State) (cs : List Command) : (s.withPending cs).prev = s.prev := rfl

@[simp] theorem withPending_phase (s : State) (cs : List Command) : (s.withPending cs).phase = s.phase := rfl

@[simp] theorem withPending_err (s : State) (cs : List Command) : (s.withPending cs).err = s.err := rfl

@[simp] theorem withPending_pending (s : State) (cs : List Command) : (s.withPending cs).pending = cs := rfl

@[simp] theorem withPending_outcomes (s : State) (cs : List Command) : (s.withPending cs).outcomes = s.outcomes := rfl

/-! ### The cursor -/

@[simp] theorem consume_srcBytes (c : BitCursor) (k : Nat) : (c.consume k).srcBytes = c.srcBytes := rfl

@[simp] theorem consume_srcPos (c : BitCursor) (k : Nat) : (c.consume k).srcPos = c.srcPos := rfl

@[simp] theorem consume_rcount (c : BitCursor) (k : Nat) : (c.consume k).rcount = c.rcount - k := rfl

@[simp] theorem consume_rvalue (c : BitCursor) (k : Nat) : (c.consume k).rvalue = c.rvalue >>> k := rfl

@[simp] theorem syncCursor_srcBytes (c : BitCursor) : (syncCursor c).srcBytes = c.srcBytes := rfl

@[simp] theorem syncCursor_srcPos (c : BitCursor) : (syncCursor c).srcPos = c.srcPos := rfl

@[simp] theorem syncCursor_rcount (c : BitCursor) : (syncCursor c).rcount = 0 := rfl

@[simp] theorem syncCursor_rvalue (c : BitCursor) : (syncCursor c).rvalue = 0#8 := rfl

/-! ### Growth and the end of a data step -/

@[simp] theorem grow_cfgMode (s : State) (cur : Bytes) : (s.grow cur).cfgMode = s.cfgMode := by
  unfold State.grow; split <;> rfl

@[simp] theorem grow_inited (s : State) (cur : Bytes) : (s.grow cur).inited = s.inited := by
  unfold State.grow; split <;> rfl

@[simp] theorem grow_refusalMark (s : State) (cur : Bytes) : (s.grow cur).refusalMark = s.refusalMark := by
  unfold State.grow; split <;> rfl

@[simp] theorem grow_reader (s : State) (cur : Bytes) : (s.grow cur).reader = s.reader := by
  unfold State.grow; split <;> rfl

@[simp] theorem grow_prev (s : State) (cur : Bytes) : (s.grow cur).prev = s.prev := by
  unfold State.grow; split <;> rfl

@[simp] theorem grow_phase (s : State) (cur : Bytes) : (s.grow cur).phase = s.phase := by
  unfold State.grow; split <;> rfl

@[simp] theorem grow_err (s : State) (cur : Bytes) : (s.grow cur).err = s.err := by
  unfold State.grow; split <;> rfl

@[simp] theorem grow_pending (s : State) (cur : Bytes) : (s.grow cur).pending = s.pending := by
  unfold State.grow; split <;> rfl

@[simp] theorem grow_outcomes (s : State) (cur : Bytes) : (s.grow cur).outcomes = s.outcomes := by
  unfold State.grow; split <;> rfl

/-- The arm's data step is the state that R70 to R72 describe. -/
theorem yieldData_eq (s : State) (cur : Bytes) : s.yieldData cur = s.afterData cur := by
  unfold State.yieldData State.grow State.afterData phaseAfter
  split <;> rename_i h <;>
    simp_all [State.dictAppend, widthAfter, firstByte]

@[simp] theorem afterData_cfgMode (s : State) (cur : Bytes) : (s.afterData cur).cfgMode = s.cfgMode := rfl

@[simp] theorem afterData_inited (s : State) (cur : Bytes) : (s.afterData cur).inited = s.inited := rfl

@[simp] theorem afterData_refusalMark (s : State) (cur : Bytes) : (s.afterData cur).refusalMark = s.refusalMark := rfl

@[simp] theorem afterData_reader (s : State) (cur : Bytes) : (s.afterData cur).reader = s.reader := rfl

@[simp] theorem afterData_prev (s : State) (cur : Bytes) : (s.afterData cur).prev = cur := rfl

@[simp] theorem afterData_err (s : State) (cur : Bytes) : (s.afterData cur).err = s.err := rfl

@[simp] theorem afterData_pending (s : State) (cur : Bytes) : (s.afterData cur).pending = s.pending := rfl

@[simp] theorem afterData_outcomes (s : State) (cur : Bytes) : (s.afterData cur).outcomes = .chunk cur :: s.outcomes := rfl

@[simp] theorem afterData_phase (s : State) (cur : Bytes) :
    (s.afterData cur).phase = if cur = [] then .justReset else .active := rfl

theorem eofArm_eq (s : State) : eofArm s = s.afterEof := rfl

theorem resetArm_eq (s : State) : resetArm s = s.afterReset := rfl

theorem enterFailed_eq (s : State) (e : ErrRecord) : s.enterFailed e = s.afterFailure e := rfl

theorem corruptArm_eq (code : Nat) (s : State) :
    corruptArm code s = s.afterFailure (.corruptStream code s.dict.length s.width.bits) := rfl

theorem kwkwkArm_eq (s : State) : kwkwkArm s = s.afterData (s.prev ++ s.prev.take 1) :=
  yieldData_eq s _

@[simp] theorem afterEof_cfgMode (s : State) : (s.afterEof).cfgMode = s.cfgMode := rfl

@[simp] theorem afterEof_inited (s : State) : (s.afterEof).inited = s.inited := rfl

@[simp] theorem afterEof_refusalMark (s : State) : (s.afterEof).refusalMark = s.refusalMark := rfl

@[simp] theorem afterEof_reader (s : State) : (s.afterEof).reader = s.reader := rfl

@[simp] theorem afterEof_width (s : State) : (s.afterEof).width = s.width := rfl

@[simp] theorem afterEof_dict (s : State) : (s.afterEof).dict = s.dict := rfl

@[simp] theorem afterEof_prev (s : State) : (s.afterEof).prev = s.prev := rfl

@[simp] theorem afterEof_phase (s : State) : (s.afterEof).phase = .exhausted := rfl

@[simp] theorem afterEof_err (s : State) : (s.afterEof).err = s.err := rfl

@[simp] theorem afterEof_pending (s : State) : (s.afterEof).pending = s.pending := rfl

@[simp] theorem afterEof_outcomes (s : State) : (s.afterEof).outcomes = .finished :: s.outcomes := rfl

@[simp] theorem afterReset_cfgMode (s : State) : (s.afterReset).cfgMode = s.cfgMode := rfl

@[simp] theorem afterReset_inited (s : State) : (s.afterReset).inited = s.inited := rfl

@[simp] theorem afterReset_refusalMark (s : State) : (s.afterReset).refusalMark = s.refusalMark := rfl

@[simp] theorem afterReset_reader (s : State) : (s.afterReset).reader = s.reader := rfl

@[simp] theorem afterReset_width (s : State) : (s.afterReset).width = .w9 := rfl

@[simp] theorem afterReset_dict (s : State) : (s.afterReset).dict = initialDict := rfl

@[simp] theorem afterReset_prev (s : State) : (s.afterReset).prev = [] := rfl

@[simp] theorem afterReset_phase (s : State) : (s.afterReset).phase = .justReset := rfl

@[simp] theorem afterReset_err (s : State) : (s.afterReset).err = s.err := rfl

@[simp] theorem afterReset_pending (s : State) : (s.afterReset).pending = s.pending := rfl

@[simp] theorem afterReset_outcomes (s : State) : (s.afterReset).outcomes = .chunk [] :: s.outcomes := rfl

@[simp] theorem afterFailure_cfgMode (s : State) (e : ErrRecord) : (s.afterFailure e).cfgMode = s.cfgMode := rfl

@[simp] theorem afterFailure_inited (s : State) (e : ErrRecord) : (s.afterFailure e).inited = s.inited := rfl

@[simp] theorem afterFailure_refusalMark (s : State) (e : ErrRecord) : (s.afterFailure e).refusalMark = s.refusalMark := rfl

@[simp] theorem afterFailure_reader (s : State) (e : ErrRecord) : (s.afterFailure e).reader = s.reader := rfl

@[simp] theorem afterFailure_width (s : State) (e : ErrRecord) : (s.afterFailure e).width = s.width := rfl

@[simp] theorem afterFailure_dict (s : State) (e : ErrRecord) : (s.afterFailure e).dict = s.dict := rfl

@[simp] theorem afterFailure_prev (s : State) (e : ErrRecord) : (s.afterFailure e).prev = s.prev := rfl

@[simp] theorem afterFailure_phase (s : State) (e : ErrRecord) : (s.afterFailure e).phase = .failed := rfl

@[simp] theorem afterFailure_err (s : State) (e : ErrRecord) : (s.afterFailure e).err = e := rfl

@[simp] theorem afterFailure_pending (s : State) (e : ErrRecord) : (s.afterFailure e).pending = s.pending := rfl

@[simp] theorem afterFailure_outcomes (s : State) (e : ErrRecord) : (s.afterFailure e).outcomes = .error e :: s.outcomes := rfl

end Sys2Proof.Machine
end

