-- ==== Sys2Proof/Laws/CodeWords.lean ====
section
/-! SUPPORT. What the classification of R45 says of each class, and that a classified code word runs its own
class's arm. -/

namespace Sys2Proof

theorem classify_eof {code len : Nat} : classify code len = .eof ↔ code = 256 := by
  unfold classify; simp only [Config.eofCode]; split
  · simp_all
  · next h => simp only [h, iff_false]; split_ifs <;> simp

theorem classify_reset {code len : Nat} : classify code len = .reset ↔ code = 257 := by
  unfold classify; simp only [Config.eofCode, Config.resetCode]
  split_ifs <;> simp_all

theorem classify_kwkwk {code len : Nat} :
    classify code len = .kwkwk ↔ code = len ∧ code ≠ 256 ∧ code ≠ 257 := by
  unfold classify; simp only [Config.eofCode, Config.resetCode]
  split_ifs <;> simp_all

theorem classify_lit {code len : Nat} : classify code len = .lit ↔ code < len ∧ code < 256 := by
  unfold classify; simp only [Config.eofCode, Config.resetCode, Config.numLiterals]
  split_ifs <;> first | omega | simp_all; try omega

theorem classify_dict {code len : Nat} : classify code len = .dict ↔ 258 ≤ code ∧ code < len := by
  unfold classify; simp only [Config.eofCode, Config.resetCode, Config.numLiterals]
  split_ifs <;> first | omega | simp_all; try omega

theorem classify_corrupt {code len : Nat} :
    classify code len = .corrupt ↔ len < code ∧ code ≠ 256 ∧ code ≠ 257 := by
  unfold classify; simp only [Config.eofCode, Config.resetCode, Config.numLiterals]
  split_ifs <;> first | omega | simp_all; try omega

namespace Machine

/-- Where R45 selects the row, a code word runs its arm. -/
theorem runClass_selected {w : Width} {k : CodeClass} {code : Nat} {s : State}
    (h1 : s.stepping = true) (h2 : s.width = w) (h3 : classify code s.dict.length = k) :
    runClass w k code s = classArm k code s := by
  simp [runClass, h1, h2, h3]

/-- Elsewhere it has no effect to model. -/
theorem runClass_unselected {w : Width} {k : CodeClass} {code : Nat} {s : State}
    (h : ¬(s.stepping = true ∧ s.width = w ∧ classify code s.dict.length = k)) :
    runClass w k code s = .refused .notSelected := by
  simp only [runClass, if_neg h]

/-- All that a code word can do where it answers a next state. -/
theorem runClass_next {w : Width} {k : CodeClass} {code : Nat} {s t : State}
    (h : runClass w k code s = .next t) :
    s.stepping = true ∧ s.width = w ∧ classify code s.dict.length = k ∧ classArm k code s = .next t := by
  unfold runClass at h
  split at h
  · next hc => exact ⟨hc.1, hc.2.1, hc.2.2, h⟩
  · cases h

/-- A readable code below the dictionary's length has an entry, and the arm yields it (R66, R67). -/
theorem entryArm_eq {code : Nat} {s : State} {cur : Bytes} (h1 : code ≠ 256) (h2 : code ≠ 257)
    (h : s.dict[code]? = some cur) : entryArm code s = .next (s.afterData cur) := by
  simp [entryArm, State.dictRead, h1, h2, h, yieldData_eq]

/-- All that the arm of LIT and DICT can do where it answers a next state. -/
theorem entryArm_next {code : Nat} {s t : State} (h : entryArm code s = .next t) :
    code ≠ 256 ∧ code ≠ 257 ∧ ∃ cur, s.dict[code]? = some cur ∧ t = s.afterData cur := by
  unfold entryArm State.dictRead at h
  simp only [Config.eofCode, Config.resetCode] at h
  by_cases hc : code = 256 ∨ code = 257
  · simp [hc] at h
  · rw [if_neg hc] at h
    rw [not_or] at hc
    refine ⟨hc.1, hc.2, ?_⟩
    split at h
    · next cur hcur => cases h; exact ⟨cur, hcur, yieldData_eq s cur⟩
    · cases h

/-- The arms as R62 lists them, for a code of the class: what each class's arm answers. -/
theorem classArm_cases {k : CodeClass} {code : Nat} {s t : State}
    (hk : classify code s.dict.length = k) (h : classArm k code s = .next t) :
    (code = 256 ∧ t = s.afterEof) ∨
    (code = 257 ∧ t = s.afterReset) ∨
    (code = s.dict.length ∧ code ≠ 256 ∧ code ≠ 257 ∧ t = s.afterData (s.prev ++ s.prev.take 1)) ∨
    (code < s.dict.length ∧ code ≠ 256 ∧ code ≠ 257 ∧
      ∃ cur, s.dict[code]? = some cur ∧ t = s.afterData cur) ∨
    (s.dict.length < code ∧ code ≠ 256 ∧ code ≠ 257 ∧
      t = s.afterFailure (.corruptStream code s.dict.length s.width.bits)) := by
  cases k with
  | eof => cases h; exact .inl ⟨classify_eof.mp hk, rfl⟩
  | reset => cases h; exact .inr (.inl ⟨classify_reset.mp hk, rfl⟩)
  | kwkwk =>
    obtain ⟨h1, h2, h3⟩ := classify_kwkwk.mp hk
    cases h; exact .inr (.inr (.inl ⟨h1, h2, h3, kwkwkArm_eq s⟩))
  | lit =>
    obtain ⟨h2, h3, h4⟩ := entryArm_next h
    exact .inr (.inr (.inr (.inl ⟨(classify_lit.mp hk).1, h2, h3, h4⟩)))
  | dict =>
    obtain ⟨h2, h3, h4⟩ := entryArm_next h
    exact .inr (.inr (.inr (.inl ⟨(classify_dict.mp hk).2, h2, h3, h4⟩)))
  | corrupt =>
    obtain ⟨h1, h2, h3⟩ := classify_corrupt.mp hk
    cases h; exact .inr (.inr (.inr (.inr ⟨h1, h2, h3, rfl⟩)))

/-- A class's arm always answers a next state for a code of that class. -/
theorem classArm_total {code : Nat} {s : State} :
    ∃ t, classArm (classify code s.dict.length) code s = .next t := by
  rcases hk : classify code s.dict.length with _ | _ | _ | _ | _ | _
  · exact ⟨_, rfl⟩
  · exact ⟨_, rfl⟩
  · exact ⟨_, rfl⟩
  · obtain ⟨h1, h2⟩ := classify_lit.mp hk
    exact ⟨_, entryArm_eq (by omega) (by omega) (List.getElem?_eq_getElem h1)⟩
  · obtain ⟨h1, h2⟩ := classify_dict.mp hk
    exact ⟨_, entryArm_eq (by omega) (by omega) (List.getElem?_eq_getElem h2)⟩
  · exact ⟨_, rfl⟩

/-- The instruction that STEP decodes runs the arm of its code's class. -/
theorem execCodeWord_codeInstr {w : Width} {code : Nat} {s : State} (hc : code < 2 ^ w.bits)
    (len : Nat) (hl : s.dict.length = len) :
    execCodeWord (codeInstr w code len) s = runClass w (classify code len) code s := by
  subst hl
  rcases hk : classify code s.dict.length with _ | _ | _ | _ | _ | _ <;> cases w <;>
    simp only [codeInstr, hk, execCodeWord, Width.bits] at hc ⊢
  · simp only [execEof9, Config.eofCode, classify_eof.mp hk]
  · simp only [execEof10, Config.eofCode, classify_eof.mp hk]
  · simp only [execEof11, Config.eofCode, classify_eof.mp hk]
  · simp only [execEof12, Config.eofCode, classify_eof.mp hk]
  · simp only [execReset9, Config.resetCode, classify_reset.mp hk]
  · simp only [execReset10, Config.resetCode, classify_reset.mp hk]
  · simp only [execReset11, Config.resetCode, classify_reset.mp hk]
  · simp only [execReset12, Config.resetCode, classify_reset.mp hk]
  · simp only [execKwkwk9, BitVec.toNat_ofNat, Nat.mod_eq_of_lt hc]
  · simp only [execKwkwk10, BitVec.toNat_ofNat, Nat.mod_eq_of_lt hc]
  · simp only [execKwkwk11, BitVec.toNat_ofNat, Nat.mod_eq_of_lt hc]
  · simp only [execKwkwk12, BitVec.toNat_ofNat, Nat.mod_eq_of_lt hc]
  · have := (classify_lit.mp hk).2
    simp only [execLit9, BitVec.toNat_ofNat, Nat.mod_eq_of_lt this]
  · have := (classify_lit.mp hk).2
    simp only [execLit10, BitVec.toNat_ofNat, Nat.mod_eq_of_lt this]
  · have := (classify_lit.mp hk).2
    simp only [execLit11, BitVec.toNat_ofNat, Nat.mod_eq_of_lt this]
  · have := (classify_lit.mp hk).2
    simp only [execLit12, BitVec.toNat_ofNat, Nat.mod_eq_of_lt this]
  · simp only [execDict9, BitVec.toNat_ofNat, Nat.mod_eq_of_lt hc]
  · simp only [execDict10, BitVec.toNat_ofNat, Nat.mod_eq_of_lt hc]
  · simp only [execDict11, BitVec.toNat_ofNat, Nat.mod_eq_of_lt hc]
  · simp only [execDict12, BitVec.toNat_ofNat, Nat.mod_eq_of_lt hc]
  · simp only [execCorrupt9, BitVec.toNat_ofNat, Nat.mod_eq_of_lt hc]
  · simp only [execCorrupt10, BitVec.toNat_ofNat, Nat.mod_eq_of_lt hc]
  · simp only [execCorrupt11, BitVec.toNat_ofNat, Nat.mod_eq_of_lt hc]
  · simp only [execCorrupt12, BitVec.toNat_ofNat, Nat.mod_eq_of_lt hc]

/-- exec of an instruction that STEP decodes is its meaning as a code word. -/
theorem exec_codeInstr {w : Width} {code len : Nat} {s : State} :
    exec (codeInstr w code len) s = execCodeWord (codeInstr w code len) s := by
  rcases hk : classify code len with _ | _ | _ | _ | _ | _ <;> cases w <;> simp only [codeInstr, hk] <;> rfl

end Machine

end Sys2Proof
end

