-- ==== Sys2Proof/Laws/Reader.lean ====
section
/-! SUPPORT. What ByteIn, one pass of ReadBits and Sync can do. A pass is followed through `Holds`, the
cursor's invariant with room for the 8 bits of a byte just taken (R14). -/

namespace Sys2Proof.Machine

/-- ByteIn answers the byte at the position and moves it on by one, and nothing else (R53). -/
theorem byteIn_some {c c' : BitCursor} {b : Byte} (h : byteIn c = some (b, c')) :
    c.srcBytes[c.srcPos]? = some b ∧ c' = { c with srcPos := c.srcPos + 1 } := by
  unfold byteIn at h
  split at h
  · next b' hb => cases h; exact ⟨hb, rfl⟩
  · cases h

/-- ByteIn answers nothing exactly where the source is exhausted (R11, R53). -/
theorem byteIn_none {c : BitCursor} : byteIn c = none ↔ c.srcBytes.length ≤ c.srcPos := by
  unfold byteIn
  split
  · next b hb =>
    have := (List.getElem?_eq_some_iff.mp hb).1
    simp; omega
  · next h => simpa using h

/-- The cursor's invariant inside a read: at most 8 residual bits, the high bits of the last byte. -/
structure Holds (c : BitCursor) : Prop where
  pos_le : c.srcPos ≤ c.srcBytes.length
  count_le : c.rcount ≤ 8
  value_lt : c.rvalue.toNat < 2 ^ c.rcount
  value_eq : 0 < c.rcount →
    1 ≤ c.srcPos ∧ ∃ b, c.srcBytes[c.srcPos - 1]? = some b ∧ c.rvalue = b >>> (8 - c.rcount)

theorem CursorInv.holds {c : BitCursor} (h : CursorInv c) : Holds c :=
  ⟨h.pos_le, by have := h.count_le; omega, h.value_lt, h.value_eq⟩

theorem Holds.cursorInv {c : BitCursor} (h : Holds c) (hc : c.rcount ≠ 8) : CursorInv c :=
  ⟨h.pos_le, by have := h.count_le; omega, h.value_lt, h.value_eq⟩

/-- A refill that answers leaves a bit to give, at the same bit position (R34). -/
theorem refill_some {c c' : BitCursor} (h : refill c = some c') (hc : Holds c) :
    Holds c' ∧ 1 ≤ c'.rcount ∧ c'.srcBytes = c.srcBytes ∧ c'.bitpos = c.bitpos := by
  unfold refill at h
  split at h
  · next h0 =>
    split at h
    · next b c1 h1 =>
      obtain ⟨hb, rfl⟩ := byteIn_some h1
      cases h
      have hlt := (List.getElem?_eq_some_iff.mp hb).1
      refine ⟨⟨by simpa using hlt, by simp, by simpa using b.isLt, fun _ => ⟨by simp, b, ?_, ?_⟩⟩, by simp, rfl, ?_⟩
      · simpa using hb
      · simp
      · simp [BitCursor.bitpos, h0]; omega
    · cases h
  · next h0 => cases h; exact ⟨hc, by omega, rfl, rfl⟩

/-- A refill answers nothing exactly where no bit is left (R34, R56). -/
theorem refill_none {c : BitCursor} :
    refill c = none ↔ c.rcount = 0 ∧ c.srcBytes.length ≤ c.srcPos := by
  unfold refill
  split
  · next h0 =>
    split
    · next b c1 hb =>
      have : byteIn c ≠ none := by rw [hb]; simp
      rw [Ne, byteIn_none] at this
      simp [h0]; omega
    · next hb => simpa [h0] using byteIn_none.mp hb
  · next h0 => simp [h0]

/-- A refill never changes the source. -/
theorem refill_src {c c' : BitCursor} (h : refill c = some c') : c'.srcBytes = c.srcBytes := by
  unfold refill at h
  split at h
  · split at h
    · next b c1 hb => obtain ⟨-, rfl⟩ := byteIn_some hb; cases h; rfl
    · cases h
  · cases h; rfl

/-- A refill that answers leaves a bit to give, for every cursor. -/
theorem refill_pos {c c' : BitCursor} (h : refill c = some c') : 1 ≤ c'.rcount := by
  unfold refill at h
  split at h
  · split at h
    · cases h; simp
    · cases h
  · cases h; omega

/-- Consuming keeps the invariant and moves the bit position on by what is consumed (R15). -/
theorem consume_holds {c : BitCursor} (hc : Holds c) {k : Nat} (hk : k ≤ c.rcount) :
    Holds (c.consume k) ∧ (c.consume k).bitpos = c.bitpos + k := by
  refine ⟨⟨hc.pos_le, ?_, ?_, ?_⟩, ?_⟩
  · have := hc.count_le
    simp; omega
  · have hv := hc.value_lt
    have hp : 2 ^ c.rcount = 2 ^ (c.rcount - k) * 2 ^ k := by
      rw [← pow_add]; congr 1; omega
    rw [hp] at hv
    simp only [consume_rvalue, consume_rcount, BitVec.toNat_ushiftRight, Nat.shiftRight_eq_div_pow]
    exact Nat.div_lt_of_lt_mul (by rwa [Nat.mul_comm] at hv)
  · intro h0
    simp only [consume_rcount] at h0
    obtain ⟨h1, b, hb, he⟩ := hc.value_eq (by omega)
    have := hc.count_le
    refine ⟨h1, b, hb, ?_⟩
    simp only [consume_rvalue, consume_rcount, he]
    rw [← BitVec.shiftRight_add]
    congr 1; omega
  · have := hc.pos_le
    have : c.rcount ≤ 8 * c.srcPos := by
      rcases Nat.eq_zero_or_pos c.rcount with h | h
      · omega
      · have := (hc.value_eq h).1
        have := hc.count_le
        omega
    simp [BitCursor.bitpos]; omega

/-- The bits that a pass takes are fewer than asked for, whatever the cursor (R54). -/
theorem lowBits_lt (c : BitCursor) (k : Nat) : c.lowBits k < 2 ^ k := by
  unfold BitCursor.lowBits
  have := Nat.and_le_right (n := c.rvalue.toNat) (m := 2 ^ k - 1)
  have := Nat.two_pow_pos k
  omega

/-- A pass with nothing more to gather answers the value gathered. -/
theorem readLoop_done {passes n got result : Nat} {c : BitCursor} (h : n ≤ got) :
    readLoop passes n got result c = (.value result, c) := by
  cases passes with
  | zero => rfl
  | succ p => simp [readLoop, Nat.not_lt.mpr h]

/-- A pass that needs a byte of an exhausted source fails (R56). -/
theorem readLoop_fails {passes n got result : Nat} {c : BitCursor} (h : got < n)
    (hr : refill c = none) :
    readLoop (passes + 1) n got result c = (.endOfStream n got, { c with rvalue := 0#8 }) := by
  simp [readLoop, h, hr]

/-- A pass that can take bits takes as many as are wanted and held, and goes on (R54). -/
theorem readLoop_takes {passes n got result : Nat} {c c' : BitCursor} (h : got < n)
    (hr : refill c = some c') :
    readLoop (passes + 1) n got result c =
      readLoop passes n (got + min (n - got) c'.rcount)
        (result ||| (c'.lowBits (min (n - got) c'.rcount) <<< got))
        (c'.consume (min (n - got) c'.rcount)) := by
  simp [readLoop, h, hr]

/-- The reader never changes its source, and a value fits in the bits asked for, for every cursor. -/
theorem readLoop_frame : ∀ (passes n got result : Nat) (c : BitCursor), got ≤ n → result < 2 ^ got →
    (readLoop passes n got result c).2.srcBytes = c.srcBytes ∧
    (∀ v, (readLoop passes n got result c).1 = .value v → v < 2 ^ n) ∧
    (∀ r o, (readLoop passes n got result c).1 = .endOfStream r o → r = n ∧ o < n) := by
  intro passes
  induction passes with
  | zero =>
    intro n got result c hg hr
    have : 2 ^ got ≤ 2 ^ n := Nat.pow_le_pow_right (by omega) hg
    refine ⟨rfl, ?_, ?_⟩
    · intro v hv; simp only [readLoop, ReadResult.value.injEq] at hv; omega
    · intro r o hv; simp [readLoop] at hv
  | succ p ih =>
    intro n got result c hg hr
    rcases Nat.lt_or_ge got n with h | h
    · rcases hf : refill c with _ | c'
      · rw [readLoop_fails h hf]
        refine ⟨rfl, by simp, ?_⟩
        intro r o hv; simp at hv; omega
      · rw [readLoop_takes h hf]
        set k := min (n - got) c'.rcount with hk
        have hlow : c'.lowBits k <<< got < 2 ^ (got + k) := by
          rw [Nat.shiftLeft_eq, pow_add, Nat.mul_comm]
          exact Nat.mul_lt_mul_of_pos_left (lowBits_lt c' k) (Nat.two_pow_pos got)
        have hres : result < 2 ^ (got + k) :=
          lt_of_lt_of_le hr (Nat.pow_le_pow_right (by omega) (by omega))
        obtain ⟨h1, h2, h3⟩ := ih n (got + k) (result ||| (c'.lowBits k <<< got)) (c'.consume k)
          (by omega) (Nat.or_lt_two_pow hres hlow)
        exact ⟨by rw [h1, consume_srcBytes, refill_src hf], h2, h3⟩
    · rw [readLoop_done h]
      have : 2 ^ got ≤ 2 ^ n := Nat.pow_le_pow_right (by omega) hg
      refine ⟨rfl, ?_, by simp⟩
      intro v hv; simp at hv; omega

/-- What ReadBits can answer, for every cursor: a value of `n` bits, or EndOfStream for `n` bits with fewer
gathered; the source stays. -/
theorem readBits_frame (n : Nat) (c : BitCursor) :
    (readBits n c).2.srcBytes = c.srcBytes ∧
    (∀ v, (readBits n c).1 = .value v → v < 2 ^ n) ∧
    (∀ r o, (readBits n c).1 = .endOfStream r o → r = n ∧ o < n) :=
  readLoop_frame n n 0 0 c (by omega) (by simp)

/-- Sync keeps the invariant. -/
theorem syncCursor_inv {c : BitCursor} (h : CursorInv c) : CursorInv (syncCursor c) :=
  ⟨h.pos_le, by simp, by simp, by simp⟩

end Sys2Proof.Machine
end

