-- ==== Sys2Proof/Laws/Commands.lean ====
section
/-! SUPPORT. What each command, each instruction and each step can do where it answers a next state. -/

namespace Sys2Proof.Machine

theorem legalIn_legal {m : CfgMode} {s : State} {run : Result} (h1 : s.inited = true)
    (h2 : s.cfgMode = m) : legalIn m s run = run := by simp [legalIn, h1, h2]

theorem legalIn_illegal {m : CfgMode} {s : State} {run : Result}
    (h : ¬(s.inited = true ∧ s.cfgMode = m)) : legalIn m s run = .next s.refuse := by
  simp only [legalIn, if_neg h]

theorem legalIn_cases (m : CfgMode) (s : State) (run : Result) :
    (s.inited = true ∧ s.cfgMode = m ∧ legalIn m s run = run) ∨
    (¬(s.inited = true ∧ s.cfgMode = m) ∧ legalIn m s run = .next s.refuse) := by
  by_cases h : s.inited = true ∧ s.cfgMode = m
  · exact .inl ⟨h.1, h.2, legalIn_legal h.1 h.2⟩
  · exact .inr ⟨h, legalIn_illegal h⟩

theorem stepping_iff {s : State} :
    s.stepping = true ↔ s.inited = true ∧ s.cfgMode = .decoder ∧ s.phase.live = true := by
  simp [State.stepping, and_assoc]

@[simp] theorem withReader_stepping (s : State) (c : BitCursor) :
    (s.withReader c).stepping = s.stepping := rfl

/-- A STEP that reads a code word runs the arm of its class on the state after the read (R62). -/
theorem stepLive_value {s : State} {code : Nat} {c : BitCursor} (hs : s.stepping = true)
    (h : readBits s.width.bits s.reader = (.value code, c)) :
    stepLive s = classArm (classify code s.dict.length) code (s.withReader c) := by
  have hlt : code < 2 ^ s.width.bits :=
    (readBits_frame s.width.bits s.reader).2.1 code (by rw [h])
  unfold stepLive
  rw [h]
  show execCodeWord (codeInstr s.width code s.dict.length) (s.withReader c) = _
  rw [execCodeWord_codeInstr (s := s.withReader c) hlt s.dict.length rfl]
  exact runClass_selected hs rfl rfl

/-- A STEP whose code read fails takes the failure (R87). -/
theorem stepLive_eos {s : State} {r o : Nat} {c : BitCursor}
    (h : readBits s.width.bits s.reader = (.endOfStream r o, c)) :
    stepLive s = .next ((s.withReader c).afterFailure (.endOfStream r o)) := by
  unfold stepLive; rw [h]; rfl

/-- A STEP in a live phase is its code read. -/
theorem execStep_live {s : State} (hs : s.stepping = true) : exec .step s = stepLive s := by
  obtain ⟨h1, h2, h3⟩ := stepping_iff.mp hs
  show execStep s = _
  unfold execStep
  rw [legalIn_legal h1 h2]
  cases hp : s.phase <;> simp_all [Phase.live]

/-- All that STEP can do (R62, R63, R78, R87). -/
theorem exec_step_cases {s t : State} (h : exec .step s = .next t) :
    (¬(s.inited = true ∧ s.cfgMode = .decoder) ∧ t = s.refuse) ∨
    (s.phase = .exhausted ∧ t = s.emit .finished) ∨
    (s.phase = .failed ∧ t = s.emit (.error s.err)) ∨
    (s.stepping = true ∧ ∃ r o c, readBits s.width.bits s.reader = (.endOfStream r o, c) ∧
      t = (s.withReader c).afterFailure (.endOfStream r o)) ∨
    (s.stepping = true ∧ ∃ code c, readBits s.width.bits s.reader = (.value code, c) ∧
      classArm (classify code s.dict.length) code (s.withReader c) = .next t) := by
  by_cases hl : s.inited = true ∧ s.cfgMode = .decoder
  · by_cases hs : s.stepping = true
    · rw [execStep_live hs] at h
      rcases hr : readBits s.width.bits s.reader with ⟨v | ⟨r, o⟩, c⟩
      · rw [stepLive_value hs hr] at h
        exact .inr (.inr (.inr (.inr ⟨hs, v, c, rfl, h⟩)))
      · rw [stepLive_eos hr] at h
        cases h
        exact .inr (.inr (.inr (.inl ⟨hs, r, o, c, rfl, rfl⟩)))
    · change execStep s = _ at h
      unfold execStep at h
      rw [legalIn_legal hl.1 hl.2] at h
      have hp : s.phase.live = false := by simpa [stepping_iff, hl.1, hl.2] using hs
      cases hph : s.phase <;> simp only [hph] at h hp
      · simp [Phase.live] at hp
      · simp [Phase.live] at hp
      · cases h; exact .inr (.inl ⟨rfl, rfl⟩)
      · cases h; exact .inr (.inr (.inl ⟨rfl, rfl⟩))
  · change execStep s = _ at h
    unfold execStep at h
    rw [legalIn_illegal hl] at h
    cases h
    exact .inl ⟨hl, rfl⟩

/-- All that SYNC can do (R57, R78). -/
theorem exec_sync_cases {s t : State} (h : exec .sync s = .next t) :
    (¬(s.inited = true ∧ s.cfgMode = .readerOnly) ∧ t = s.refuse) ∨
    (s.inited = true ∧ s.cfgMode = .readerOnly ∧ t = (s.withReader (syncCursor s.reader)).emit .done) := by
  change execSync s = _ at h
  unfold execSync at h
  rcases legalIn_cases .readerOnly s (.next ((s.withReader (syncCursor s.reader)).emit .done)) with
    ⟨h1, h2, h3⟩ | ⟨h1, h3⟩
  · rw [h3] at h; cases h; exact .inr ⟨h1, h2, rfl⟩
  · rw [h3] at h; cases h; exact .inl ⟨h1, rfl⟩

/-- All that READ_BITS can do (R54, R55, R56, R78). -/
theorem exec_readBits_cases {n : Nat} {s t : State} (h : exec (.readBits n) s = .next t) :
    (¬(s.inited = true ∧ s.cfgMode = .readerOnly ∧ 1 ≤ n ∧ n ≤ 32) ∧ t = s.refuse) ∨
    (s.inited = true ∧ s.cfgMode = .readerOnly ∧ 1 ≤ n ∧ n ≤ 32 ∧
      ((∃ r o c, readBits n s.reader = (.endOfStream r o, c) ∧
          t = (s.withReader c).emit (.error (.endOfStream r o))) ∨
       (∃ v c, readBits n s.reader = (.value v, c) ∧ t = (s.withReader c).emit (.value v)))) := by
  change execReadBits n s = _ at h
  unfold execReadBits at h
  by_cases hl : s.inited = true ∧ s.cfgMode = .readerOnly
  · rw [legalIn_legal hl.1 hl.2] at h
    by_cases hn : Config.readMin ≤ n ∧ n ≤ Config.readMax
    · rw [if_pos hn] at h
      refine .inr ⟨hl.1, hl.2, hn.1, hn.2, ?_⟩
      rcases hr : readBits n s.reader with ⟨v | ⟨r, o⟩, c⟩
      · rw [hr] at h; cases h; exact .inr ⟨v, c, rfl, rfl⟩
      · rw [hr] at h; cases h; exact .inl ⟨r, o, c, rfl, rfl⟩
    · rw [if_neg hn] at h; cases h
      exact .inl ⟨fun hc => hn ⟨hc.2.2.1, hc.2.2.2⟩, rfl⟩
  · rw [legalIn_illegal hl] at h; cases h
    exact .inl ⟨fun hc => hl ⟨hc.1, hc.2.1⟩, rfl⟩

/-- Every instruction is a command or a code word of some format and class. -/
theorem exec_shape (i : Instr) :
    (∃ source, i = .init source) ∨ i = .step ∨ i = .sync ∨ (∃ n, i = .readBits n) ∨
    (∃ w k code, encode i = .code w code ∧ ∀ s, exec i s = runClass w k code s) := by
  cases i <;> first
    | exact .inl ⟨_, rfl⟩
    | exact .inr (.inl rfl)
    | exact .inr (.inr (.inl rfl))
    | exact .inr (.inr (.inr (.inl ⟨_, rfl⟩)))
    | exact .inr (.inr (.inr (.inr ⟨_, _, _, rfl, fun _ => rfl⟩)))

/-- All that one step can do: nothing where no command is issued, a refusal of a word that is no command,
or the command's own instruction. -/
theorem step_cases {s t : State} (h : step s = .next t) :
    (s.pending = [] ∧ t = s) ∨
    (∃ c cs, s.pending = c :: cs ∧ (∀ i, decodeCommand c.word c.arg ≠ .ok i) ∧
      t = (s.withPending cs).refuse) ∨
    (∃ c cs i, s.pending = c :: cs ∧ decodeCommand c.word c.arg = .ok i ∧
      exec i (s.withPending cs) = .next t) := by
  unfold step at h
  split at h
  · next hp => cases h; exact .inl ⟨hp, rfl⟩
  · next c cs hp =>
    unfold runCommand at h
    split at h
    · next i hi => exact .inr (.inr ⟨c, cs, i, hp, hi, h⟩)
    · next e he =>
      cases h
      exact .inr (.inl ⟨c, cs, hp, by simp [he], rfl⟩)

end Sys2Proof.Machine
end

