-- ==== Sys2Proof/Laws/PerInstr.lean ====
section
/-! SUPPORT. Statements about every instruction as syntax, one lemma per constructor. -/

namespace Sys2Proof.Laws

/-- The encoding fits its form: a code value has no more bits than its format (R43), and a command word has
its must-be-0 bits 0 (R51). -/
def CodeFits.Statement (i : Instr) : Prop :=
  i.wf = true →
    match encode i with
    | .code w v => v < 2 ^ w.bits
    | .command word _ => word.extractLsb' 0 6 = 0 ∨ (3 ≤ word.toNat / 64 ∧ word.getLsbD 5 = false)

theorem CodeFits.lit9 (i : BitVec 8) : CodeFits.Statement (.lit9 i) := fun _ => by
  have := i.isLt; simp only [encode, Width.bits]; omega

theorem CodeFits.eof9 : CodeFits.Statement .eof9 := fun _ => by simp [encode, Width.bits]

theorem CodeFits.reset9 : CodeFits.Statement .reset9 := fun _ => by simp [encode, Width.bits]

theorem CodeFits.dict9 (c : BitVec 9) : CodeFits.Statement (.dict9 c) := fun _ => c.isLt

theorem CodeFits.kwkwk9 (c : BitVec 9) : CodeFits.Statement (.kwkwk9 c) := fun _ => c.isLt

theorem CodeFits.corrupt9 (c : BitVec 9) : CodeFits.Statement (.corrupt9 c) := fun _ => c.isLt

theorem CodeFits.lit10 (i : BitVec 8) : CodeFits.Statement (.lit10 i) := fun _ => by
  have := i.isLt; simp only [encode, Width.bits]; omega

theorem CodeFits.eof10 : CodeFits.Statement .eof10 := fun _ => by simp [encode, Width.bits]

theorem CodeFits.reset10 : CodeFits.Statement .reset10 := fun _ => by simp [encode, Width.bits]

theorem CodeFits.dict10 (c : BitVec 10) : CodeFits.Statement (.dict10 c) := fun _ => c.isLt

theorem CodeFits.kwkwk10 (c : BitVec 10) : CodeFits.Statement (.kwkwk10 c) := fun _ => c.isLt

theorem CodeFits.corrupt10 (c : BitVec 10) : CodeFits.Statement (.corrupt10 c) := fun _ => c.isLt

theorem CodeFits.lit11 (i : BitVec 8) : CodeFits.Statement (.lit11 i) := fun _ => by
  have := i.isLt; simp only [encode, Width.bits]; omega

theorem CodeFits.eof11 : CodeFits.Statement .eof11 := fun _ => by simp [encode, Width.bits]

theorem CodeFits.reset11 : CodeFits.Statement .reset11 := fun _ => by simp [encode, Width.bits]

theorem CodeFits.dict11 (c : BitVec 11) : CodeFits.Statement (.dict11 c) := fun _ => c.isLt

theorem CodeFits.kwkwk11 (c : BitVec 11) : CodeFits.Statement (.kwkwk11 c) := fun _ => c.isLt

theorem CodeFits.corrupt11 (c : BitVec 11) : CodeFits.Statement (.corrupt11 c) := fun _ => c.isLt

theorem CodeFits.lit12 (i : BitVec 8) : CodeFits.Statement (.lit12 i) := fun _ => by
  have := i.isLt; simp only [encode, Width.bits]; omega

theorem CodeFits.eof12 : CodeFits.Statement .eof12 := fun _ => by simp [encode, Width.bits]

theorem CodeFits.reset12 : CodeFits.Statement .reset12 := fun _ => by simp [encode, Width.bits]

theorem CodeFits.dict12 (c : BitVec 12) : CodeFits.Statement (.dict12 c) := fun _ => c.isLt

theorem CodeFits.kwkwk12 (c : BitVec 12) : CodeFits.Statement (.kwkwk12 c) := fun _ => c.isLt

theorem CodeFits.corrupt12 (c : BitVec 12) : CodeFits.Statement (.corrupt12 c) := fun _ => c.isLt

theorem CodeFits.init (source : Bytes) : CodeFits.Statement (.init source) := fun _ => .inl (by decide)

theorem CodeFits.step : CodeFits.Statement .step := fun _ => .inl (by decide)

theorem CodeFits.sync : CodeFits.Statement .sync := fun _ => .inl (by decide)

theorem CodeFits.readBits (n : Nat) : CodeFits.Statement (.readBits n) := fun h => by
  simp only [Instr.wf, Config.readMin, Config.readMax, Bool.and_eq_true, decide_eq_true_eq] at h
  obtain ⟨h1, h2⟩ := h
  refine .inr ?_
  interval_cases n <;> decide

end Sys2Proof.Laws
end

