-- ==== Sys2Proof/Tests/Slice0.lean ====
section
/-! SUPPORT. The model's own tests: ill-formed terms, decoded words, one step of each instruction, and a
state and operands that meet the hypotheses of each statement. Expected values come from spec/95_test_vectors.md
(named V-…) or from the rule named. -/

namespace Sys2Proof.Tests

open Sys2Proof.Machine

set_option maxRecDepth 100000

/-! ### Well-formedness: one ill-formed term for each check -/

theorem test_wf_dict : Instr.wf (.dict9 257#9) = false ∧ Instr.wf (.dict10 0#10) = false ∧
    Instr.wf (.dict11 257#11) = false ∧ Instr.wf (.dict12 255#12) = false := by decide

theorem test_wf_kwkwk : Instr.wf (.kwkwk9 257#9) = false ∧ Instr.wf (.kwkwk10 3#10) = false ∧
    Instr.wf (.kwkwk11 257#11) = false ∧ Instr.wf (.kwkwk12 0#12) = false := by decide

theorem test_wf_corrupt : Instr.wf (.corrupt9 258#9) = false ∧ Instr.wf (.corrupt10 1#10) = false ∧
    Instr.wf (.corrupt11 258#11) = false ∧ Instr.wf (.corrupt12 257#12) = false := by decide

theorem test_wf_readBits : Instr.wf (.readBits 0) = false ∧ Instr.wf (.readBits 33) = false ∧
    Instr.wf (.readBits 32) = true := by decide

/-! ### Words written out from R46 and R51 -/

theorem test_decode_w9 :
    decode (.code .w9 0b001000001) 258 = .ok (.lit9 0x41#8) ∧
    decode (.code .w9 0b100000000) 258 = .ok .eof9 ∧
    decode (.code .w9 0b100000001) 258 = .ok .reset9 ∧
    decode (.code .w9 0b100000010) 260 = .ok (.dict9 258#9) ∧
    decode (.code .w9 0b100000100) 260 = .ok (.kwkwk9 260#9) ∧
    decode (.code .w9 0b111111111) 260 = .ok (.corrupt9 511#9) := by decide

theorem test_decode_w10 :
    decode (.code .w10 0b0011111111) 513 = .ok (.lit10 0xFF#8) ∧
    decode (.code .w10 0b0100000000) 513 = .ok .eof10 ∧
    decode (.code .w10 0b0100000001) 513 = .ok .reset10 ∧
    decode (.code .w10 0b1000000000) 513 = .ok (.dict10 512#10) ∧
    decode (.code .w10 0b1000000001) 513 = .ok (.kwkwk10 513#10) ∧
    decode (.code .w10 0b1000000010) 513 = .ok (.corrupt10 514#10) := by decide

theorem test_decode_w11 :
    decode (.code .w11 0b00000000001) 1025 = .ok (.lit11 0x01#8) ∧
    decode (.code .w11 0b00100000000) 1025 = .ok .eof11 ∧
    decode (.code .w11 0b00100000001) 1025 = .ok .reset11 ∧
    decode (.code .w11 0b10000000000) 1025 = .ok (.dict11 1024#11) ∧
    decode (.code .w11 0b10000000001) 1025 = .ok (.kwkwk11 1025#11) ∧
    decode (.code .w11 0b11111111111) 1025 = .ok (.corrupt11 2047#11) := by decide

/-- V-AR6, V-AR8 among them. -/
theorem test_decode_w12 :
    decode (.code .w12 0b000010000000) 2049 = .ok (.lit12 0x80#8) ∧
    decode (.code .w12 0b000100000000) 2049 = .ok .eof12 ∧
    decode (.code .w12 0b000100000001) 4000 = .ok .reset12 ∧
    decode (.code .w12 0b111111111110) 4095 = .ok (.dict12 4094#12) ∧
    decode (.code .w12 0b111111111111) 4095 = .ok (.kwkwk12 4095#12) ∧
    decode (.code .w12 0b111111111111) 4094 = .ok (.corrupt12 4095#12) := by decide

/-- R51; V-BR10 among them. -/
theorem test_decode_commands :
    decodeCommand 0b00000000#8 [0xB5#8] = .ok (.init [0xB5#8]) ∧
    decodeCommand 0b01000000#8 [] = .ok .step ∧
    decodeCommand 0b10000000#8 [] = .ok .sync ∧
    decodeCommand 0b11000000#8 [] = .ok (.readBits 1) ∧
    decodeCommand 0b11011111#8 [] = .ok (.readBits 32) ∧
    decodeCommand 0b00100000#8 [] = .error (.mustBeZero 0x20#8) ∧
    decodeCommand 0b11100000#8 [] = .error (.mustBeZero 0xE0#8) := by decide

/-- A code value wider than its format is no word. -/
theorem test_decode_too_wide : decode (.code .w9 512) 258 = .error (.codeTooWide .w9 512) := by decide

theorem test_table_words :
    decodeTableWord 8 0xC2 = some (.readBits 3) ∧ decodeTableWord 8 0x60 = none ∧
    decodeTableWord 9 0x100 = some .eof9 ∧ decodeTableWord 16 0x101 = some .reset9 ∧
    decodeTableWord 10 0x41 = some (.lit10 0x41#8) ∧ decodeTableWord 16 4096 = none := by decide

/-- V-DEC12: the stream and its packed bytes. -/
theorem test_pack : packCodes [(.w9, 0x41), (.w9, 0x42), (.w9, 257), (.w9, 257), (.w9, 0x42), (.w9, 258),
    (.w9, 256)] = [0x41#8, 0x84#8, 0x04#8, 0x0C#8, 0x28#8, 0x44#8, 0x20#8, 0x40#8] := by decide

/-! ### One step of each instruction -/

/-- A check of the state that an instruction answers. -/
def answers (r : Result) (p : State → Bool) : Bool :=
  match r with
  | .next t => p t
  | .fault _ => false
  | .refused _ => false

theorem next_of_answers {r : Result} {p : State → Bool} (h : answers r p = true) :
    ∃ t, r = .next t ∧ p t = true := by
  cases r with
  | next t => exact ⟨t, rfl, h⟩
  | fault f => cases h
  | refused f => cases h

/-- A decoder right after INIT of a source. -/
def fresh (source : Bytes) : State := { State.reset with reader := ⟨source, 0, 0, 0#8⟩ }

/-- A decoder with a given width and some dynamic entries, its previous sequence `[28]`. -/
def busy (w : Width) (dynamic : List Bytes) : State :=
  { State.reset with width := w, dict := initialDict ++ dynamic, prev := [0x28#8], phase := .active }

/-- A reader after READ_BITS(3) of the source `B5 3C` (V-BR1). -/
def readerAt3 : State :=
  { State.preInit .readerOnly with inited := true, reader := ⟨[0xB5#8, 0x3C#8], 1, 5, 0x16#8⟩ }

/-- V-SRC4, second code: `[28 48]` is appended and `prev` is `[48]`. -/
theorem test_lit9 : answers (exec (.lit9 0x42#8) (busy .w9 []))
    (fun t => t.dict[258]? == some [0x28#8, 0x48#8] && t.prev == [0x48#8]) = true := by decide

theorem test_lit10 : answers (exec (.lit10 0x01#8) (busy .w10 []))
    (fun t => t.outcomes.head? == some (.chunk [0x20#8])) = true := by decide

theorem test_lit11 : answers (exec (.lit11 0x08#8) (busy .w11 []))
    (fun t => t.prev == [0x01#8]) = true := by decide

theorem test_lit12 : answers (exec (.lit12 0xFF#8) (busy .w12 []))
    (fun t => t.prev == [0xFF#8]) = true := by decide

theorem test_eof : answers (exec .eof9 (busy .w9 [])) (fun t => t.phase == .exhausted) = true ∧
    answers (exec .eof10 (busy .w10 [])) (fun t => t.outcomes.head? == some .finished) = true ∧
    answers (exec .eof11 (busy .w11 [])) (fun t => t.prev == [0x28#8]) = true ∧
    answers (exec .eof12 (busy .w12 [])) (fun t => t.phase == .exhausted) = true := by decide

theorem test_reset : answers (exec .reset9 (busy .w9 [[1#8, 2#8]])) (fun t => t.dict.length == 258) = true ∧
    answers (exec .reset10 (busy .w10 [])) (fun t => t.width == .w9) = true ∧
    answers (exec .reset11 (busy .w11 [])) (fun t => t.prev == [] && t.phase == .justReset) = true ∧
    answers (exec .reset12 (busy .w12 [])) (fun t => t.outcomes.head? == some (.chunk [])) = true := by decide

/-- R67: the entry is the chunk, and the growth candidate is the OLD `prev` and the entry's first byte (R72). -/
theorem test_dict : answers (exec (.dict9 258#9) (busy .w9 [[0x41#8, 0x42#8]]))
      (fun t => t.dict[259]? == some [0x28#8, 0x41#8] && t.prev == [0x41#8, 0x42#8]) = true ∧
    answers (exec (.dict10 258#10) (busy .w10 [[0x41#8, 0x42#8]])) (fun t => t.dict.length == 260) = true ∧
    answers (exec (.dict11 258#11) (busy .w11 [[0x41#8, 0x42#8]]))
      (fun t => t.prev == [0x41#8, 0x42#8]) = true ∧
    answers (exec (.dict12 258#12) (busy .w12 [[0x41#8, 0x42#8]])) (fun t => t.phase == .active) = true := by
  decide

/-- V-DEC2: the chunk is `[28 28]`, and so is the new entry at the code. -/
theorem test_kwkwk : answers (exec (.kwkwk9 258#9) (busy .w9 []))
      (fun t => t.dict[258]? == some [0x28#8, 0x28#8] && t.prev == [0x28#8, 0x28#8]) = true ∧
    answers (exec (.kwkwk10 258#10) (busy .w10 [])) (fun t => t.dict.length == 259) = true ∧
    answers (exec (.kwkwk11 258#11) (busy .w11 [])) (fun t => t.prev.length == 2) = true ∧
    answers (exec (.kwkwk12 258#12) (busy .w12 [])) (fun t => t.phase == .active) = true := by decide

/-- V-DEC4: KWKWK on an empty `prev` emits an empty chunk and appends nothing. -/
theorem test_kwkwk_empty : answers (exec (.kwkwk9 258#9) (fresh []))
    (fun t => t.outcomes.head? == some (.chunk []) && t.dict.length == 258) = true := by decide

/-- V-DEC6: the error names the code, the length and the width, and no chunk is emitted. -/
theorem test_corrupt : answers (exec (.corrupt9 300#9) (busy .w9 []))
      (fun t => t.err == .corruptStream 300 258 9 && t.phase == .failed) = true ∧
    answers (exec (.corrupt10 300#10) (busy .w10 [])) (fun t => t.err == .corruptStream 300 258 10) = true ∧
    answers (exec (.corrupt11 300#11) (busy .w11 [])) (fun t => t.err.causeCode == 2) = true ∧
    answers (exec (.corrupt12 300#12) (busy .w12 [])) (fun t => t.prev == [0x28#8]) = true := by decide

theorem test_init : answers (exec (.init [0xB5#8]) (busy .w12 []))
    (fun t => t.width == .w9 && t.reader == ⟨[0xB5#8], 0, 0, 0#8⟩) = true := by decide

/-- V-SRC5: the source `00 01` ends at its first code, with 7 bits of the second byte left. -/
theorem test_step_eof : answers (exec .step (fresh [0x00#8, 0x01#8]))
    (fun t => t.phase == .exhausted && t.reader == ⟨[0x00#8, 0x01#8], 2, 7, 0#8⟩) = true := by decide

/-- V-DEC8: 8 of 9 bits, then EndOfStream. -/
theorem test_step_endOfStream : answers (exec .step (fresh [0x41#8]))
    (fun t => t.err == .endOfStream 9 8 && t.reader == ⟨[0x41#8], 1, 0, 0#8⟩) = true := by decide

/-- V-BR3. -/
theorem test_sync : answers (exec .sync readerAt3)
    (fun t => t.reader == ⟨[0xB5#8, 0x3C#8], 1, 0, 0#8⟩) = true := by decide

/-- V-BR1, second read. -/
theorem test_readBits : answers (exec (.readBits 7) readerAt3)
    (fun t => t.outcomes.head? == some (.value 0x16) && t.reader.rcount == 6) = true := by decide

/-- V-BR9, V-BR11: refused, the mark set and nothing else. -/
theorem test_refused : answers (exec (.readBits 33) readerAt3)
      (fun t => t == { readerAt3 with refusalMark := true }) = true ∧
    answers (exec .step readerAt3) (fun t => t == { readerAt3 with refusalMark := true }) = true := by decide

/-- V-AR4: the width after an append that leaves this many entries. -/
theorem test_widthAfter : widthAfter .w9 512 = .w9 ∧ widthAfter .w9 513 = .w10 ∧ widthAfter .w10 1024 = .w10 ∧
    widthAfter .w10 1025 = .w11 ∧ widthAfter .w11 2048 = .w11 ∧ widthAfter .w11 2049 = .w12 ∧
    widthAfter .w12 4095 = .w12 := by decide

theorem test_withFetchWord :
    answers (step (State.reset.withFetchWord 8 0xC7)) (fun t => t.phase == .justReset && t.cfgMode == .readerOnly &&
      t.outcomes.head? == some (.error (.endOfStream 8 0))) = true ∧
    answers (step (State.reset.withFetchWord 16 0x100)) (fun t => t.phase == .exhausted) = true ∧
    answers (step (State.reset.withFetchWord 9 0x41)) (fun t => t.prev == [0x28#8]) = true := by decide

/-! ### A state and operands that meet the hypotheses of each statement

One theorem for each statement with hypotheses, named after it, and one conjunct for each clause. -/

/-- The cursor right after INIT of a source. -/
theorem start_cursor (source : Bytes) : CursorInv (fresh source).reader :=
  ⟨Nat.zero_le _, Nat.zero_le _, by simp [fresh], fun h => absurd h (by simp [fresh])⟩

/-- The cursor of V-BR1 after its first read, in mid-byte. -/
theorem readerAt3_cursor : CursorInv readerAt3.reader :=
  ⟨by decide, by decide, by decide, fun _ => ⟨by decide, 0xB5#8, by decide, by decide⟩⟩

/-- A decoder whose dictionary holds `n` dynamic entries `[00 00]`. -/
def filled (w : Width) (n : Nat) (source : Bytes) : State :=
  { fresh source with
    width := w, dict := initialDict ++ List.replicate n [0#8, 0#8], prev := [0#8], phase := .active
    pending := [⟨0x40#8, []⟩] }

theorem head_length : initialDict.length = 258 := by decide

theorem filled_length (w : Width) (n : Nat) (source : Bytes) : (filled w n source).dict.length = 258 + n := by
  show (initialDict ++ List.replicate n [0#8, 0#8]).length = _
  rw [List.length_append, head_length, List.length_replicate]

theorem filled_entry {w : Width} {n k : Nat} {source e : Bytes} (hk : 258 ≤ k)
    (h : (filled w n source).dict[k]? = some e) : e = [0#8, 0#8] := by
  have h' : (initialDict ++ List.replicate n [0#8, 0#8])[k]? = some e := h
  rw [List.getElem?_append_right (by rw [head_length]; exact hk)] at h'
  exact (List.mem_replicate.mp (List.mem_of_getElem? h')).2

theorem filled_inv {w : Width} {n : Nat} (source : Bytes) (hn : n ≤ 3837) (hw : WidthFits w (258 + n)) :
    (filled w n source).Inv where
  cursor := start_cursor source
  dictionary :=
    { len_ge := by rw [filled_length]; omega
      len_le := by rw [filled_length]; omega
      head_eq := List.take_left' head_length
      dynamic_len := fun k e hk he => by
        rw [filled_entry hk he]; exact ⟨Nat.le_refl _, show 2 ≤ k - 256 by omega⟩
      prev_len := fun _ => by rw [filled_length]; show 1 ≤ _; omega
      width_fits := by rw [filled_length]; exact hw }
  phase_prev := fun _ => ⟨fun h => (by cases h), fun h => (by cases h)⟩
  err_phase := ⟨fun h => absurd rfl h, fun h => (by cases h)⟩

theorem filled_prefix (w : Width) (n : Nat) (source : Bytes) : PrefixClosed (filled w n source) where
  entries := fun k e hk he =>
    ⟨0, 0#8, [0#8], by omega, by decide, by decide, rfl, by rw [filled_entry hk he]; rfl⟩
  previous := fun _ _ => ⟨0, ⟨by rw [filled_length]; omega, by decide, by decide⟩, rfl⟩

theorem fits_512 : WidthFits .w9 512 := ⟨by decide, fun w' _ => by cases w' <;> decide⟩

theorem fits_258 : WidthFits .w9 258 := ⟨by decide, fun w' _ => by cases w' <;> decide⟩

theorem fits_513 : WidthFits .w10 513 := ⟨by decide, fun w' => by cases w' <;> decide⟩

theorem fits_4095 : WidthFits .w12 4095 := ⟨by decide, fun w' => by cases w' <;> decide⟩

theorem fresh_inv (source : Bytes) : (fresh source).Inv where
  cursor := start_cursor _
  dictionary :=
    { len_ge := Nat.le_of_eq head_length.symm
      len_le := head_length.le.trans (by decide)
      head_eq := List.take_of_length_le head_length.le
      dynamic_len := fun k e hk he => by
        have : k < 258 := by rw [← head_length]; exact (List.getElem?_eq_some_iff.mp he).1
        omega
      prev_len := fun _ => Nat.zero_le _
      width_fits := by
        show WidthFits .w9 initialDict.length
        rw [head_length]; exact fits_258 }
  phase_prev := fun _ => ⟨fun _ => rfl, fun _ => rfl⟩
  err_phase := ⟨fun h => absurd rfl h, fun h => (by cases h)⟩

/-- V-SRC4 right after INIT. -/
def demo : State := fresh [0x41#8, 0x84#8, 0x00#8, 0x04#8]

theorem demo_inv : demo.Inv := fresh_inv _

theorem witness_LiteralEntriesNeverChange :
    (∃ t, exec (.init [1#8]) demo = .next t) ∧ (∃ t, exec .reset9 demo = .next t) ∧
    (∃ t, exec .reset10 (busy .w10 []) = .next t) ∧ (∃ t, exec .reset11 (busy .w11 []) = .next t) ∧
    (∃ t, exec .reset12 (busy .w12 []) = .next t) ∧
    (∀ i : BitVec 8, demo.dict[i.toNat]? = some [rotr8 i 3]) ∧ (∃ t, step demo = .next t) :=
  ⟨⟨_, rfl⟩, ⟨_, rfl⟩, ⟨_, rfl⟩, ⟨_, rfl⟩, ⟨_, rfl⟩, by decide, ⟨_, rfl⟩⟩

/-- A read that ends exactly at the end of the source, and one that is a bit longer than what is left. -/
theorem witness_ReadBitsReturnsTheNextStreamBits :
    (1 ≤ 13 ∧ 13 ≤ 32 ∧ CursorInv readerAt3.reader ∧ readerAt3.reader.has 13) ∧
    (1 ≤ 14 ∧ 14 ≤ 32 ∧ CursorInv readerAt3.reader ∧ ¬readerAt3.reader.has 14) :=
  ⟨⟨by decide, by decide, readerAt3_cursor, by decide⟩, ⟨by decide, by decide, readerAt3_cursor, by decide⟩⟩

theorem witness_ReadBitsPastTheEndFails :
    1 ≤ 32 ∧ 32 ≤ 32 ∧ CursorInv readerAt3.reader ∧ ¬readerAt3.reader.has 32 :=
  ⟨by decide, by decide, readerAt3_cursor, by decide⟩

/-- The reader of V-BR6 after its failing read. -/
theorem witness_ReaderStaysAtTheEnd :
    ∃ s : State, s.inited = true ∧ s.cfgMode = .readerOnly ∧ 1 ≤ 1 ∧ 1 ≤ 32 ∧
      s.reader.srcPos = s.reader.srcBytes.length ∧ s.reader.rcount = 0 ∧ s.reader.rvalue = 0#8 :=
  ⟨{ readerAt3 with reader := ⟨[0xB5#8], 1, 0, 0#8⟩ }, rfl, rfl, by decide, by decide, rfl, rfl, rfl⟩

theorem witness_ReaderKeepsTheCursorInvariant : CursorInv readerAt3.reader := readerAt3_cursor

theorem witness_LookaheadIsAtMostOneByte : CursorInv readerAt3.reader ∧ readerAt3.reader.bitpos = 3 :=
  ⟨readerAt3_cursor, rfl⟩

/-- V-SRC4 after its first code: the cursor is at bit 9. -/
theorem witness_PackedCodesReadBack :
    (0x42 : Nat) < 2 ^ Width.w9.bits ∧ CursorInv ⟨[0x41#8, 0x84#8, 0x00#8, 0x04#8], 2, 7, 0x42#8⟩ ∧
    [0x41#8, 0x84#8, 0x00#8, 0x04#8] = packCodes ([(.w9, 0x41)] ++ (.w9, 0x42) :: [(.w9, 256)]) ∧
    BitCursor.bitpos ⟨[0x41#8, 0x84#8, 0x00#8, 0x04#8], 2, 7, 0x42#8⟩ =
      ([(Width.w9, 0x41)].map fun x => x.1.bits).sum :=
  ⟨by decide, ⟨by decide, by decide, by decide, fun _ => ⟨by decide, 0x84#8, by decide, by decide⟩⟩, by decide, by decide⟩

/-- Each clause at both ends of its range: counts 1 and 32, words 01, BF, E0 and FF. -/
theorem witness_CommandWordTable :
    (1 ≤ 1 ∧ 1 ≤ 32) ∧ (1 ≤ 32 ∧ 32 ≤ 32) ∧
    ((0x01#8).toNat < 0xC0 ∧ (0x01#8).toNat % 64 ≠ 0) ∧ ((0xBF#8).toNat < 0xC0 ∧ (0xBF#8).toNat % 64 ≠ 0) ∧
    0xE0 ≤ (0xE0#8).toNat ∧ 0xE0 ≤ (0xFF#8).toNat := by decide

theorem witness_CommandWordsEncodeBack :
    decodeCommand 0x00#8 [7#8] = .ok (.init [7#8]) ∧ decodeCommand 0xDF#8 [7#8] = .ok (.readBits 32) := by decide

theorem witness_StepRunsTheIssuedCommand :
    demo.pending = [] ∧
    ((filled .w9 0 []).pending = ⟨0x40#8, []⟩ :: [] ∧ decodeCommand 0x40#8 [] = .ok .step) ∧
    (({ demo with pending := [⟨0x20#8, []⟩] } : State).pending = ⟨0x20#8, []⟩ :: [] ∧
      decodeCommand 0x20#8 [] = .error (.mustBeZero 0x20#8)) :=
  ⟨rfl, ⟨rfl, by decide⟩, rfl, by decide⟩

/-- Another mode, and no INIT yet. -/
theorem witness_IllegalCommandsAreRefused :
    ¬(readerAt3.inited = true ∧ readerAt3.cfgMode = .decoder) ∧
    ¬((State.preInit .decoder).inited = true ∧ (State.preInit .decoder).cfgMode = .decoder) ∧
    ¬(demo.inited = true ∧ demo.cfgMode = .readerOnly) ∧
    ¬((State.preInit .readerOnly).inited = true ∧ (State.preInit .readerOnly).cfgMode = .readerOnly) := by
  decide

theorem witness_ReadBitsCountOutOfRangeRefused :
    ((0 < 1 ∨ 32 < 0) ∧ (33 < 1 ∨ 32 < 33)) ∧ decodeCommand 0xC0#8 [] = .ok (.readBits 1) ∧
    decodeCommand 0xDF#8 [] = .ok (.readBits 32) := by decide

/-- A command that runs, on an instance with the mark set, and one that sets the mark. -/
theorem witness_ConfigurationAndMarkPersist :
    (∃ s t : State, exec (.init []) s = .next t ∧ s.refusalMark = true ∧ s.inited = true) ∧
    (∃ s t : State, exec .sync s = .next t ∧ t.refusalMark ≠ s.refusalMark) :=
  ⟨⟨{ demo with refusalMark := true }, _, rfl, rfl, rfl⟩, ⟨demo, _, rfl, by decide⟩⟩

theorem witness_SyncDiscardsThePartialByte :
    (readerAt3.inited = true ∧ readerAt3.cfgMode = .readerOnly ∧ CursorInv readerAt3.reader) ∧
    ∃ s : State, s.inited = true ∧ s.cfgMode = .readerOnly ∧ CursorInv s.reader ∧ s.reader.rcount = 0 :=
  ⟨⟨rfl, rfl, readerAt3_cursor⟩, ⟨{ readerAt3 with reader := ⟨[0xB5#8], 0, 0, 0#8⟩ }, rfl, rfl, start_cursor _, rfl⟩⟩

theorem witness_ReadBitsCommandAnswersItsValue :
    readerAt3.inited = true ∧ readerAt3.cfgMode = .readerOnly ∧ 1 ≤ 13 ∧ 13 ≤ 32 ∧
      CursorInv readerAt3.reader ∧ readerAt3.reader.has 13 :=
  ⟨rfl, rfl, by decide, by decide, readerAt3_cursor, by decide⟩

theorem witness_ReadBitsCommandPastTheEnd :
    readerAt3.inited = true ∧ readerAt3.cfgMode = .readerOnly ∧ 1 ≤ 14 ∧ 14 ≤ 32 ∧
      CursorInv readerAt3.reader ∧ ¬readerAt3.reader.has 14 :=
  ⟨rfl, rfl, by decide, by decide, readerAt3_cursor, by decide⟩

theorem witness_StepAfterTheEndRepeats :
    (∃ s : State, s.inited = true ∧ s.cfgMode = .decoder ∧ s.phase = .exhausted) ∧
    (∃ s : State, s.inited = true ∧ s.cfgMode = .decoder ∧ s.phase = .failed) :=
  ⟨⟨{ demo with phase := .exhausted }, rfl, rfl, rfl⟩,
   ⟨{ demo with phase := .failed, err := .corruptStream 259 258 9 }, rfl, rfl, rfl⟩⟩

/-- The two-byte source of V-SRC5 holds a code word, and one bit position more is past its end. -/
theorem witness_StepRunsTheCodeWordItReads :
    demo.stepping = true ∧ CursorInv demo.reader ∧ demo.reader.has demo.width.bits :=
  ⟨by decide, start_cursor _, by decide⟩

theorem witness_StepTakesEndOfStream :
    (fresh [0x41#8]).stepping = true ∧ CursorInv (fresh [0x41#8]).reader ∧
      ¬(fresh [0x41#8]).reader.has (fresh [0x41#8]).width.bits :=
  ⟨by decide, start_cursor _, by decide⟩

/-- The four clauses: EXHAUSTED, FAILED, a live phase at the end of the source, and one with a code word. -/
theorem witness_StepFollowsItsPseudocode :
    (∃ s : State, s.inited = true ∧ s.cfgMode = .decoder ∧ CursorInv s.reader ∧ s.phase = .exhausted) ∧
    (∃ s : State, s.inited = true ∧ s.cfgMode = .decoder ∧ CursorInv s.reader ∧ s.phase = .failed) ∧
    (∃ s : State, s.inited = true ∧ s.cfgMode = .decoder ∧ CursorInv s.reader ∧ s.phase.live = true ∧
      ¬s.reader.has s.width.bits) ∧
    (demo.inited = true ∧ demo.cfgMode = .decoder ∧ CursorInv demo.reader ∧ demo.phase.live = true ∧
      demo.reader.has demo.width.bits) :=
  ⟨⟨{ demo with phase := .exhausted }, rfl, rfl, start_cursor _, rfl⟩,
   ⟨{ demo with phase := .failed }, rfl, rfl, start_cursor _, rfl⟩,
   ⟨fresh [0x41#8], rfl, rfl, start_cursor _, rfl, by decide⟩,
   rfl, rfl, start_cursor _, rfl, by decide⟩

theorem busy_length (w : Width) : (busy w []).dict.length = 258 := by
  show (initialDict ++ []).length = 258
  rw [List.append_nil]; exact head_length

theorem busy_head (w : Width) (dynamic : List Bytes) : (busy w dynamic).dict.take 258 = initialDict :=
  List.take_left' head_length

/-- A live decoder of each width, with the literals in place. -/
theorem witness_LitYieldsItsLiteral :
    ∀ w : Width, (busy w []).stepping = true ∧ (busy w []).dict.take 258 = initialDict ∧ (busy w []).width = w :=
  fun w => ⟨rfl, busy_head w [], rfl⟩

theorem witness_EofEndsTheSequence : ∀ w : Width, (busy w []).stepping = true ∧ (busy w []).width = w :=
  fun _ => ⟨rfl, rfl⟩

theorem witness_ResetReinitialisesTheDecoder :
    ∀ w : Width, (busy w [[1#8, 2#8]]).stepping = true ∧ (busy w [[1#8, 2#8]]).width = w :=
  fun _ => ⟨rfl, rfl⟩

/-- The least DICT code, whose entry is the newest one. -/
theorem witness_DictYieldsItsEntry :
    (∀ w : Width, (busy w [[1#8, 2#8]]).stepping = true ∧ (busy w [[1#8, 2#8]]).width = w ∧
      (busy w [[1#8, 2#8]]).dict[258]? = some [1#8, 2#8]) ∧
    258 ≤ (258#9).toNat ∧ 258 ≤ (258#10).toNat ∧ 258 ≤ (258#11).toNat ∧ 258 ≤ (258#12).toNat :=
  ⟨fun _ => ⟨rfl, rfl, rfl⟩, by decide⟩

/-- A previous sequence and a dictionary that grows, an empty one, a full dictionary, and each width. -/
theorem witness_KwkwkCopiesThePreviousSequence :
    ((busy .w9 []).stepping = true ∧ 258 ≤ (busy .w9 []).dict.length ∧ (busy .w9 []).prev ≠ [] ∧
      (busy .w9 []).dict.length < 4095) ∧
    (demo.stepping = true ∧ 258 ≤ demo.dict.length ∧ demo.prev = []) ∧
    ((filled .w12 3837 []).stepping = true ∧ 4095 ≤ (filled .w12 3837 []).dict.length) ∧
    (∀ w : Width, (busy w []).stepping = true ∧ (busy w []).width = w ∧ (busy w []).dict.length = 258) ∧
    (258#9).toNat = 258 ∧ (258#10).toNat = 258 ∧ (258#11).toNat = 258 ∧ (258#12).toNat = 258 :=
  ⟨by decide, by decide, ⟨rfl, by rw [filled_length]⟩,
    fun w => ⟨rfl, rfl, busy_length w⟩, by decide⟩

/-- The least and the greatest CORRUPT code at length 258. -/
theorem witness_CorruptTakesTheFailure :
    (∀ w : Width, (busy w []).stepping = true ∧ (busy w []).width = w ∧ (busy w []).dict.length = 258) ∧
    258 < (259#9).toNat ∧ 258 < (511#9).toNat ∧ 258 < (259#10).toNat ∧ 258 < (259#11).toNat ∧
    258 < (4095#12).toNat :=
  ⟨fun w => ⟨rfl, rfl, busy_length w⟩, by decide⟩

/-- Another width, another class, and a phase that is not live. -/
theorem witness_UnselectedCodeWordStops :
    encode (.lit10 0x41#8) = .code .w10 0x41 ∧ ¬(demo.stepping = true ∧ demo.width = .w10 ∧
      codeInstr .w10 0x41 demo.dict.length = .lit10 0x41#8) ∧
    encode (.dict9 258#9) = .code .w9 258 ∧ ¬(demo.stepping = true ∧ demo.width = .w9 ∧
      codeInstr .w9 258 demo.dict.length = .dict9 258#9) ∧
    encode .eof9 = .code .w9 256 ∧ State.stepping { demo with phase := .exhausted } = false := by decide

theorem witness_ClassificationFollowsTheOpcodeMap : 258 ≤ 258 ∧ 258 ≤ 4095 := by decide

theorem witness_DecodeOfEncodeIsTheInstruction :
    (Instr.dict9 258#9).wf = true ∧ 258 ≤ 259 ∧ (Instr.dict9 258#9).selectedAt 259 = true ∧
    (Instr.kwkwk12 4095#12).wf = true ∧ (Instr.kwkwk12 4095#12).selectedAt 4095 = true ∧
    (Instr.readBits 32).wf = true ∧ (Instr.readBits 32).selectedAt 258 = true := by decide

theorem witness_EncodeOfDecodedCodeWord : 258 ≤ 258 ∧ 511 < 2 ^ Width.w9.bits ∧ 0 < 2 ^ Width.w12.bits := by decide

/-- A length that fills its width, the least and the greatest length, and a code above the length. -/
theorem witness_ClassesAWidthCanExpress :
    (WidthFits .w9 512 ∧ 512 = 2 ^ Width.w9.bits ∧ 511 < 2 ^ Width.w9.bits) ∧
    (WidthFits .w9 258 ∧ 258 ≠ 2 ^ Width.w9.bits ∧ 258 < 259 ∧ 259 < 2 ^ Width.w9.bits) ∧
    (WidthFits .w12 4095 ∧ 4095 ≠ 2 ^ Width.w12.bits ∧ 4095 < 4096) :=
  ⟨⟨fits_512, by decide, by decide⟩, ⟨fits_258, by decide, by decide, by decide⟩, ⟨fits_4095, by decide, by decide⟩⟩

theorem witness_DictionaryIsAppendOnly :
    (filled .w9 0 [0#8, 0#8]).Inv ∧ ∃ t, step (filled .w9 0 [0#8, 0#8]) = .next t :=
  ⟨filled_inv _ (by decide) fits_258, (next_of_answers (p := fun _ => true) (by decide)).imp fun _ h => h.1⟩

/-- An append that reaches 513 entries, one that does not pass its width's range, and a step that appends
nothing. -/
theorem witness_WidthChangesOnlyPastItsRange :
    ((filled .w9 254 [0#8, 0#8]).Inv ∧ ∃ t, step (filled .w9 254 [0#8, 0#8]) = .next t ∧
      t.dict.length = (filled .w9 254 [0#8, 0#8]).dict.length + 1 ∧ t.dict.length = 513) ∧
    ((filled .w9 0 [0#8, 0#8]).Inv ∧ ∃ t, step (filled .w9 0 [0#8, 0#8]) = .next t ∧
      t.dict.length = (filled .w9 0 [0#8, 0#8]).dict.length + 1 ∧ t.dict.length ≠ 513 ∧
      t.dict.length ≠ 1025 ∧ t.dict.length ≠ 2049) ∧
    ((filled .w9 0 [0#8, 1#8]).Inv ∧ ∃ t, step (filled .w9 0 [0#8, 1#8]) = .next t ∧
      t.dict.length = (filled .w9 0 [0#8, 1#8]).dict.length) := by
  refine ⟨⟨filled_inv _ (by decide) fits_512, ?_⟩, ⟨filled_inv _ (by decide) fits_258, ?_⟩,
    filled_inv _ (by decide) fits_258, ?_⟩
  · have h : answers (step (filled .w9 254 [0#8, 0#8])) (fun t => t.dict.length == 513) = true := by decide
    obtain ⟨t, h1, h2⟩ := next_of_answers h
    exact ⟨t, h1, by rw [filled_length]; exact eq_of_beq h2, eq_of_beq h2⟩
  · have h : answers (step (filled .w9 0 [0#8, 0#8])) (fun t => t.dict.length == 259) = true := by decide
    obtain ⟨t, h1, h2⟩ := next_of_answers h
    have h3 : t.dict.length = 259 := eq_of_beq h2
    exact ⟨t, h1, by rw [filled_length, h3], by omega, by omega, by omega⟩
  · have h : answers (step (filled .w9 0 [0#8, 1#8])) (fun t => t.dict.length == 258) = true := by decide
    obtain ⟨t, h1, h2⟩ := next_of_answers h
    exact ⟨t, h1, by rw [filled_length]; exact eq_of_beq h2⟩

/-- V-SRC4's decoder after its first STEP. -/
def demo1 : State :=
  { demo with
    reader := ⟨[0x41#8, 0x84#8, 0x00#8, 0x04#8], 2, 7, 0x42#8⟩, prev := [0x28#8], phase := .active
    outcomes := .chunk [0x28#8] :: demo.outcomes }

theorem demo_step : exec .step demo = .next demo1 := by
  have h : answers (exec .step demo) (fun t => t == demo1) = true := by decide
  obtain ⟨t, h1, h2⟩ := next_of_answers h
  rw [h1, eq_of_beq h2]

/-- A cursor over `m` zero bytes that still has `n` bits to give. -/
structure ZeroReader (m n : Nat) (c : BitCursor) : Prop where
  src : c.srcBytes = List.replicate m 0#8
  value : c.rvalue = 0#8
  holds : Holds c
  room : c.bitpos + n ≤ 8 * m

theorem zero_readLoop (m : Nat) : ∀ (passes n got : Nat) (c : BitCursor) (rest : Nat), got ≤ n → n ≤ got + passes →
    ZeroReader m (n - got + rest) c →
    ∃ c', readLoop passes n got 0 c = (.value 0, c') ∧ ZeroReader m rest c' := by
  intro passes
  induction passes with
  | zero => intro n got c rest hg hp hz; exact ⟨c, rfl, hz.src, hz.value, hz.holds, by have := hz.room; omega⟩
  | succ passes ih =>
    intro n got c rest hg hp hz
    obtain ⟨hs, hv, hh, hr⟩ := hz
    rcases Nat.lt_or_ge got n with h | h
    · rcases hf : refill c with _ | c1
      · obtain ⟨h0, h1⟩ := refill_none.mp hf
        have h2 := hh.pos_le
        have h3 : c.srcBytes.length = m := by rw [hs, List.length_replicate]
        simp only [BitCursor.bitpos] at hr; omega
      · obtain ⟨h1, h2, h3, h4⟩ := refill_some hf hh
        have hv1 : c1.rvalue = 0#8 := by
          unfold refill at hf
          split at hf
          · split at hf
            · next b c2 hb =>
              cases hf
              have := (byteIn_some hb).1
              rw [hs] at this
              exact (List.mem_replicate.mp (List.mem_of_getElem? this)).2
            · cases hf
          · cases hf; exact hv
        rw [readLoop_takes h hf]
        obtain ⟨h5, h6⟩ := consume_holds h1 (k := min (n - got) c1.rcount) (by omega)
        have h7 : 0 ||| c1.lowBits (min (n - got) c1.rcount) <<< got = 0 := by simp [BitCursor.lowBits, hv1]
        rw [h7]
        exact ih n _ _ rest (by omega) (by omega)
          ⟨by rw [consume_srcBytes, h3, hs], by simp [hv1], h5, by omega⟩
    · rw [readLoop_done h]
      exact ⟨c, rfl, hs, hv, hh, by omega⟩

/-- A live decoder over zero bytes with room for `n` bits: every code word is LIT 0. -/
structure ZeroRun (m n : Nat) (s : State) : Prop where
  stepping : s.stepping = true
  reader : ZeroReader m n s.reader
  entry : s.dict[0]? = some [0#8]

theorem zeroRun_step {m n : Nat} {s : State} (h : ZeroRun m (12 + n) s) :
    ∃ t, exec .step s = .next t ∧ t.outcomes = .chunk [0#8] :: s.outcomes ∧ ZeroRun m n t := by
  obtain ⟨h1, h2, h3⟩ := h
  have hw : s.width.bits ≤ 12 := by cases s.width <;> decide
  obtain ⟨c, hc, hz⟩ := zero_readLoop m s.width.bits s.width.bits 0 s.reader (12 + n - s.width.bits) (by omega) (by omega)
    ⟨h2.src, h2.value, h2.holds, by have := h2.room; omega⟩
  have hlen : 0 < s.dict.length := (List.getElem?_eq_some_iff.mp h3).1
  refine ⟨(s.withReader c).afterData [0#8], ?_, rfl, ?_, ?_, ?_⟩
  · rw [execStep_live h1, stepLive_value h1 hc, classify_lit.mpr ⟨hlen, by decide⟩]
    exact entryArm_eq (by decide) (by decide) h3
  · obtain ⟨a, b, -⟩ := stepping_iff.mp h1
    exact stepping_iff.mpr ⟨a, b, rfl⟩
  · exact ⟨hz.src, hz.value, hz.holds, by have := hz.room; show c.bitpos + n ≤ _; omega⟩
  · show ((s.withReader c).afterData [0#8]).dict[0]? = _
    unfold State.afterData
    show (if _ then s.dict ++ _ else s.dict)[0]? = _
    by_cases hg : (s.withReader c).prev ≠ [] ∧ (s.withReader c).dict.length < 4095
    · rw [if_pos hg, List.getElem?_append_left hlen]; exact h3
    · rw [if_neg hg]; exact h3

/-- The hypotheses of `DataCodesSinceInitialisation` for a run of `k` codes. -/
def DataRun (k : Nat) : Prop :=
  ∃ f : Nat → State, (f 0).Inv ∧ (f 0).stepping = true ∧ (f 0).dict = initialDict ∧ (f 0).prev = [] ∧ 1 ≤ k ∧
    ∀ j, j < k → exec .step (f j) = .next (f (j + 1)) ∧
      ∃ cur, cur ≠ [] ∧ (f (j + 1)).outcomes = .chunk cur :: (f j).outcomes

/-- A run of `k` LIT codes over zero bytes. -/
theorem zeros_dataRun (k : Nat) (hk : 1 ≤ k) : DataRun k := by
  let start : State := fresh (List.replicate (2 * k) 0#8)
  let f : Nat → State := fun n => Nat.rec start (fun _ s => match exec .step s with | .next t => t | _ => s) n
  have key : ∀ j, j ≤ k → ZeroRun (2 * k) (12 * (k - j)) (f j) := by
    intro j
    induction j with
    | zero => intro _; exact ⟨rfl, ⟨rfl, rfl, (start_cursor _).holds, by show 0 + _ ≤ _; omega⟩, rfl⟩
    | succ j ih =>
      intro hj
      have h := ih (by omega)
      rw [show 12 * (k - j) = 12 + 12 * (k - (j + 1)) by omega] at h
      obtain ⟨t, ht, -, hz⟩ := zeroRun_step h
      show ZeroRun _ _ (match exec .step (f j) with | .next t => t | _ => f j)
      rw [ht]; exact hz
  refine ⟨f, fresh_inv _, rfl, rfl, rfl, hk, fun j hj => ?_⟩
  have h := key j (by omega)
  rw [show 12 * (k - j) = 12 + 12 * (k - (j + 1)) by omega] at h
  obtain ⟨t, ht, ho, -⟩ := zeroRun_step h
  have e : f (j + 1) = t := by
    show (match exec .step (f j) with | .next t => t | _ => f j) = t
    rw [ht]
  exact ⟨by rw [e, ht], [0#8], by decide, by rw [e, ho]⟩
/-- The counts at which the clauses of R82 meet. -/
theorem witness_DataCodesSinceInitialisation :
    DataRun 1 ∧ DataRun 255 ∧ DataRun 256 ∧ DataRun 767 ∧ DataRun 768 ∧ DataRun 1791 ∧ DataRun 1792 ∧
    DataRun 3838 ∧ DataRun 3839 :=
  ⟨zeros_dataRun _ (by decide), zeros_dataRun _ (by decide), zeros_dataRun _ (by decide),
    zeros_dataRun _ (by decide), zeros_dataRun _ (by decide), zeros_dataRun _ (by decide),
    zeros_dataRun _ (by decide), zeros_dataRun _ (by decide), zeros_dataRun _ (by decide)⟩

theorem witness_PhaseFollowsTheOutcome :
    (demo.inited = true ∧ demo.cfgMode = .decoder ∧ exec .step demo = .next demo1 ∧ demo.phase.live = true) ∧
    (∃ s t : State, s.inited = true ∧ s.cfgMode = .decoder ∧ exec .step s = .next t ∧ s.phase = .exhausted) ∧
    (∃ s t : State, s.inited = true ∧ s.cfgMode = .decoder ∧ exec .step s = .next t ∧ s.phase = .failed) :=
  ⟨⟨rfl, rfl, demo_step, rfl⟩, ⟨{ demo with phase := .exhausted }, _, rfl, rfl, rfl, rfl⟩,
   ⟨{ demo with phase := .failed }, _, rfl, rfl, rfl, rfl⟩⟩

theorem witness_OnlyInitLeavesFailed :
    ∃ s t : State, s.inited = true ∧ s.cfgMode = .decoder ∧ s.phase = .failed ∧ exec .step s = .next t ∧
      ∀ source, Instr.step ≠ .init source :=
  ⟨{ demo with phase := .failed, err := .endOfStream 9 8 }, _, rfl, rfl, rfl, rfl, fun _ h => by cases h⟩

/-- A failure and an INIT. -/
theorem witness_ErrorRecordWrittenOnlyAtFailure :
    (∃ s t : State, exec .step s = .next t ∧ t.err ≠ s.err) ∧
    (∃ s t : State, exec (.init []) s = .next t ∧ t.err ≠ s.err) := by
  refine ⟨?_, { demo with phase := .failed, err := .endOfStream 9 8 }, _, rfl, by decide⟩
  have h : answers (exec .step (fresh [0x41#8])) (fun t => t.err != (fresh [0x41#8]).err) = true := by decide
  obtain ⟨t, h1, h2⟩ := next_of_answers h
  exact ⟨_, t, h1, by simpa using h2⟩

theorem witness_ChunkLengths :
    demo.Inv ∧ demo.stepping = true ∧ exec .step demo = .next demo1 ∧
      demo1.outcomes = .chunk [0x28#8] :: demo.outcomes :=
  ⟨demo_inv, rfl, demo_step, rfl⟩

theorem witness_StepExtendsTheDecodedBuffer :
    (∃ t, exec (.init [1#8]) demo = .next t) ∧
    demo.inited = true ∧ demo.cfgMode = .decoder ∧ exec .step demo = .next demo1 :=
  ⟨⟨_, rfl⟩, rfl, rfl, demo_step⟩

theorem witness_EveryStepKeepsTheInvariant :
    (filled .w9 254 [0#8, 0#8]).Inv ∧ ∃ t, step (filled .w9 254 [0#8, 0#8]) = .next t :=
  ⟨filled_inv _ (by decide) fits_512, (next_of_answers (p := fun _ => true) (by decide)).imp fun _ h => h.1⟩

theorem witness_EveryStepKeepsThePrefixStructure :
    (filled .w9 254 [0#8, 0#8]).Inv ∧ PrefixClosed (filled .w9 254 [0#8, 0#8]) ∧
      ∃ t, step (filled .w9 254 [0#8, 0#8]) = .next t :=
  ⟨filled_inv _ (by decide) fits_512, filled_prefix _ _ _,
    (next_of_answers (p := fun _ => true) (by decide)).imp fun _ h => h.1⟩

theorem witness_DecodeIgnoresEarlierInputs : (busy .w12 [[1#8, 2#8]]).cfgMode = .decoder := rfl

/-- V-SRC5 with every bit after the EOF code word set, and a byte more. -/
theorem witness_TrailingDataNeverRead :
    decodeRun [0x00#8, 0x01#8] = some ([], .terminated) ∧ runPosition [0x00#8, 0x01#8] = 9 ∧
    (∀ k, k < 9 → k < 8 * [0x00#8, 0xFF#8, 0x42#8].length ∧
      streamBit [0x00#8, 0xFF#8, 0x42#8] k = streamBit [0x00#8, 0x01#8] k) := by decide

/-- A STEP that has its code word, and one that does not. -/
theorem witness_EveryDecodeRunEnds :
    (demo.stepping = true ∧ CursorInv demo.reader ∧ demo.reader.has demo.width.bits) ∧
    ((fresh [0x41#8]).stepping = true ∧ CursorInv (fresh [0x41#8]).reader ∧
      ¬(fresh [0x41#8]).reader.has (fresh [0x41#8]).width.bits) :=
  ⟨⟨rfl, start_cursor _, by decide⟩, ⟨rfl, start_cursor _, by decide⟩⟩

end Sys2Proof.Tests
end

section
/-! PROOFS. The statements about the encoding. -/

namespace Sys2Proof

/-- The last two tests of R45 are not reached, and the third fails, below the dictionary's length. -/
theorem classify_below_length {code len : Nat} (h : code < len) :
    classify code len ≠ .kwkwk ∧ classify code len ≠ .corrupt := by
  constructor
  · intro hk
    obtain ⟨heq, -, -⟩ := classify_kwkwk.mp hk
    omega
  · intro hk
    obtain ⟨hgt, -, -⟩ := classify_corrupt.mp hk
    omega

/-- From 258 on the length is neither of the two special codes, which R45 tests first. -/
theorem classify_length {len : Nat} (h : 258 ≤ len) : classify len len = .kwkwk :=
  classify_kwkwk.mpr ⟨rfl, by omega, by omega⟩

theorem classify_above_length {code len : Nat} (h : 258 ≤ len) (hgt : len < code) :
    classify code len = .corrupt :=
  classify_corrupt.mpr ⟨hgt, by omega, by omega⟩

namespace Machine

/-- Settles O38: whether a width has room for the length decides it. A width that the length fills has codes
below the length only; any other has the length itself and the codes above it. -/
theorem classesAWidthCanExpress : Obligations.ClassesAWidthCanExpress := by
  refine ⟨?_, ?_, ?_, ?_⟩
  · intro w len hge _ hw
    constructor
    · intro hfull code hcode
      exact classify_below_length (hfull ▸ hcode)
    · intro hroom
      exact ⟨lt_of_le_of_ne hw.fits hroom, classify_length hge,
        fun code hgt _ => classify_above_length hge hgt⟩
  · exact classify_length (by omega)
  · intro code hcode hk
    obtain ⟨hgt, -, -⟩ := classify_corrupt.mp hk
    omega
  · exact classify_above_length (by omega) (by omega)

end Machine

end Sys2Proof
end

section
/-! PROOFS. The statements about the bit-stream reader. -/

namespace Sys2Proof

/-- A guarded answer is given exactly where its guard holds. -/
theorem ite_ok_error_eq_ok {ε α : Type} {p : Prop} [Decidable p] {a b : α} {e : ε} :
    (if p then Except.ok a else Except.error e) = .ok b ↔ p ∧ a = b := by
  by_cases hp : p <;> simp [hp]

/-- All the words that are commands, and the command of each (R51). -/
theorem decodeCommand_cases {word : BitVec 8} {arg : Bytes} {i : Instr} (h : decodeCommand word arg = .ok i) :
    (word.extractLsb' 6 2 = 0 ∧ word.extractLsb' 0 6 = 0 ∧ i = .init arg) ∨
    (word.extractLsb' 6 2 = 1 ∧ word.extractLsb' 0 6 = 0 ∧ i = .step) ∨
    (word.extractLsb' 6 2 = 2 ∧ word.extractLsb' 0 6 = 0 ∧ i = .sync) ∨
    (word.extractLsb' 6 2 = 3 ∧ word.getLsbD 5 = false ∧
      i = .readBits ((word.extractLsb' 0 5).toNat + 1)) := by
  simp only [decodeCommand] at h
  split at h
  · next hop =>
    obtain ⟨hlow, rfl⟩ := ite_ok_error_eq_ok.mp h
    exact .inl ⟨hop, hlow, rfl⟩
  split at h
  · next hop =>
    obtain ⟨hlow, rfl⟩ := ite_ok_error_eq_ok.mp h
    exact .inr (.inl ⟨hop, hlow, rfl⟩)
  split at h
  · next hop =>
    obtain ⟨hlow, rfl⟩ := ite_ok_error_eq_ok.mp h
    exact .inr (.inr (.inl ⟨hop, hlow, rfl⟩))
  · next h0 h1 h2 =>
    rw [← ite_not] at h
    obtain ⟨hbit, rfl⟩ := ite_ok_error_eq_ok.mp h
    exact .inr (.inr (.inr ⟨by bv_omega, Bool.eq_false_of_not_eq_true hbit, rfl⟩))

/-- Five bits hold n - 1, so a command word's count is in the range of R55. -/
theorem decodeCommand_readBits_count {word : BitVec 8} {arg : Bytes} {n : Nat}
    (h : decodeCommand word arg = .ok (.readBits n)) : 1 ≤ n ∧ n ≤ 32 := by
  obtain ⟨-, -, hi⟩ | ⟨-, -, hi⟩ | ⟨-, -, hi⟩ | ⟨-, -, hi⟩ := decodeCommand_cases h <;> cases hi
  have := (word.extractLsb' 0 5).isLt
  omega

namespace Machine

/-- R55's refusal is the same as that of an illegal mode, so no state decides between them. -/
theorem exec_readBits_out_of_range {n : Nat} (h : n < 1 ∨ 32 < n) (s : State) :
    exec (.readBits n) s = .next s.refuse := by
  have hn : ¬(Config.readMin ≤ n ∧ n ≤ Config.readMax) := by
    simp only [Config.readMin, Config.readMax]; omega
  change legalIn .readerOnly s (if _ then _ else .next s.refuse) = _
  rw [if_neg hn]
  obtain ⟨-, -, hlegal⟩ | ⟨-, hillegal⟩ := legalIn_cases .readerOnly s (.next s.refuse)
  · exact hlegal
  · exact hillegal

/-- Settles O18: the refusal of a count out of range, the range of the five bits of a command word, and the
four widths one by one. -/
theorem readBitsCountOutOfRangeRefused : Obligations.ReadBitsCountOutOfRangeRefused := by
  refine ⟨?_, ?_, ?_⟩
  · intro n s hn
    exact exec_readBits_out_of_range hn s
  · intro word arg n hdecode
    exact decodeCommand_readBits_count hdecode
  · intro w
    cases w <;> decide

end Machine

end Sys2Proof
end

section
/-! PROOFS. The statements about the LZW decoder. -/

namespace Sys2Proof.Machine

/-! ### The rotation of a byte -/

theorem rotr8_eq_rotateRight {k : Nat} (hk : k < 8) (i : Byte) : rotr8 i k = i.rotateRight k :=
  (BitVec.rotateRight_eq_rotateRightAux_of_lt hk).symm

theorem rotl8_eq_rotateLeft {k : Nat} (hk : k < 8) (b : Byte) : rotl8 b k = b.rotateLeft k :=
  (BitVec.rotateLeft_eq_rotateLeftAux_of_lt hk).symm

/-- Bit `j` of the rotated byte is bit `j + k` of the byte, modulo 8. -/
theorem getLsbD_rotr8 {k j : Nat} (hk : k < 8) (hj : j < 8) (i : Byte) :
    (rotr8 i k).getLsbD j = i.getLsbD ((j + k) % 8) := by
  rw [rotr8_eq_rotateRight hk, BitVec.getLsbD_rotateRight, Nat.mod_eq_of_lt hk]
  by_cases hwrap : j < 8 - k
  · rw [Nat.mod_eq_of_lt (by omega), Nat.add_comm j k]
    simp [hwrap]
  · have hmod : (j + k) % 8 = j - (8 - k) := by omega
    simp [hwrap, hj, hmod]

/-- Bit `j` of the byte rotated left is bit `j - k` of the byte, modulo 8. -/
theorem getLsbD_rotl8 {k j : Nat} (hk : k < 8) (hj : j < 8) (b : Byte) :
    (rotl8 b k).getLsbD j = b.getLsbD ((j + (8 - k)) % 8) := by
  rw [rotl8_eq_rotateLeft hk, BitVec.getLsbD_rotateLeft, Nat.mod_eq_of_lt hk]
  by_cases hwrap : j < k
  · rw [Nat.mod_eq_of_lt (by omega), Nat.add_comm j]
    simp [hwrap]
  · have hmod : (j + (8 - k)) % 8 = j - k := by omega
    simp [hwrap, hj, hmod]

theorem rotl8_rotr8 {k : Nat} (hk : k < 8) (i : Byte) : rotl8 (rotr8 i k) k = i := by
  refine BitVec.eq_of_getLsbD_eq fun j hj => ?_
  rw [getLsbD_rotl8 hk hj, getLsbD_rotr8 hk (Nat.mod_lt _ (by decide))]
  congr 1
  omega

theorem rotr8_rotl8 {k : Nat} (hk : k < 8) (b : Byte) : rotr8 (rotl8 b k) k = b := by
  refine BitVec.eq_of_getLsbD_eq fun j hj => ?_
  rw [getLsbD_rotr8 hk hj, getLsbD_rotl8 hk (Nat.mod_lt _ (by decide))]
  congr 1
  omega

theorem rotr8_bijective {k : Nat} (hk : k < 8) : Function.Bijective (fun i : Byte => rotr8 i k) :=
  Function.bijective_iff_has_inverse.mpr ⟨fun b => rotl8 b k, rotl8_rotr8 hk, rotr8_rotl8 hk⟩

/-- A field that starts at bit `p` of the rotated byte and does not pass its top is the field that starts at
bit `q = p + k` of the byte, modulo 8. -/
theorem extractLsb'_rotr8 {k p q len : Nat} (hk : k < 8) (hp : p + len ≤ 8) (hq : q + len ≤ 8)
    (h : (p + k) % 8 = q % 8) (i : Byte) :
    (rotr8 i k).extractLsb' p len = i.extractLsb' q len := by
  refine BitVec.eq_of_getElem_eq fun j hj => ?_
  rw [BitVec.getElem_extractLsb', BitVec.getElem_extractLsb', getLsbD_rotr8 hk (by omega)]
  congr 1
  omega

/-- The mask of R61 clears only bits that the shift to the top drops. -/
theorem shiftLeft_five_eq_masked (i : Byte) : i <<< 5 = (i &&& 7#8) <<< 5 := by
  have hmask : i.toNat &&& 7 = i.toNat % 8 := Nat.and_two_pow_sub_one_eq_mod i.toNat 3
  refine BitVec.eq_of_toNat_eq ?_
  simp only [BitVec.toNat_shiftLeft, BitVec.toNat_and, BitVec.toNat_ofNat, Nat.reducePow, Nat.reduceMod,
    Nat.shiftLeft_eq, hmask]
  omega

theorem rotr8_three_eq (i : Byte) : rotr8 i 3 = (i >>> 3) ||| ((i &&& 7#8) <<< 5) := by
  rw [← shiftLeft_five_eq_masked]
  rfl

/-! ### The literal entries -/

theorem initialDict_literal {k : Nat} (hk : k < 256) : initialDict[k]? = some (literalEntry k) := by
  have hlen : k < ((List.range Config.numLiterals).map literalEntry).length := by simpa using hk
  rw [initialDict, List.getElem?_append_left hlen, List.getElem?_map, List.getElem?_range hk]
  rfl

theorem initialDict_byte (i : BitVec 8) : initialDict[i.toNat]? = some [rotr8 i 3] := by
  rw [initialDict_literal i.isLt, literalEntry, BitVec.ofNat_toNat, BitVec.setWidth_eq]

/-- Settles O3: an index below 256 falls in the literals, whose byte is a rotation; the bit fields, the inverse
and the bijection are those of every rotation by less than 8. -/
theorem literalEntryPermutation : Obligations.LiteralEntryPermutation := by
  refine ⟨fun i => ⟨initialDict_byte i, rotr8_three_eq i, ?_, ?_, ?_, ?_⟩, ?_, ?_⟩
  · exact extractLsb'_rotr8 (by decide) (by decide) (by decide) (by decide) i
  · exact extractLsb'_rotr8 (by decide) (by decide) (by decide) (by decide) i
  · exact rotl8_rotr8 (by decide) i
  · exact rotr8_rotl8 (by decide) i
  · exact rotr8_bijective (by decide)
  · decide

/-! ### STEP after the end -/

theorem exec_step_exhausted {s : State} (hinit : s.inited = true) (hmode : s.cfgMode = .decoder)
    (hphase : s.phase = .exhausted) : exec .step s = .next (s.emit .finished) := by
  change execStep s = _
  rw [execStep, legalIn_legal hinit hmode, hphase]

theorem exec_step_failed {s : State} (hinit : s.inited = true) (hmode : s.cfgMode = .decoder)
    (hphase : s.phase = .failed) : exec .step s = .next (s.emit (.error s.err)) := by
  change execStep s = _
  rw [execStep, legalIn_legal hinit hmode, hphase]

/-- Settles O23: the two phases in which STEP reads nothing, each with its outcome. -/
theorem stepAfterTheEndRepeats : Obligations.StepAfterTheEndRepeats := by
  intro s hinit hmode
  constructor
  · exact exec_step_exhausted hinit hmode
  · exact exec_step_failed hinit hmode

end Sys2Proof.Machine
end

section
/-! PROOFS. The statements about the decode run and the host. -/

namespace Sys2Proof.Machine

/-! ### How the dictionary changes -/

/-- What can become of a dictionary: no entry changes unless all are written anew (R17). -/
inductive DictChange (d : List Bytes) : List Bytes → Prop where
  | kept : DictChange d d
  | rebuilt : DictChange d initialDict
  | appended (e : Bytes) : DictChange d (d ++ [e])

theorem DictChange.literal_kept {d d' : List Bytes} {i : Byte} (h : DictChange d d')
    (hlit : d[i.toNat]? = some [rotr8 i 3]) : d'[i.toNat]? = some [rotr8 i 3] := by
  cases h with
  | kept => exact hlit
  | rebuilt => exact initialDict_byte i
  | appended e =>
    obtain ⟨hlt, -⟩ := List.getElem?_eq_some_iff.mp hlit
    rw [List.getElem?_append_left hlt]
    exact hlit

theorem afterData_dictChange (s : State) (cur : Bytes) : DictChange s.dict (s.afterData cur).dict := by
  unfold State.afterData
  dsimp only
  split
  · exact .appended _
  · exact .kept

theorem classArm_dictChange {k : CodeClass} {code : Nat} {s t : State}
    (hk : classify code s.dict.length = k) (h : classArm k code s = .next t) : DictChange s.dict t.dict := by
  obtain ⟨-, rfl⟩ | ⟨-, rfl⟩ | ⟨-, -, -, rfl⟩ | ⟨-, -, -, cur, -, rfl⟩ | ⟨-, -, -, rfl⟩ :=
    classArm_cases hk h
  · exact .kept
  · exact .rebuilt
  · exact afterData_dictChange s _
  · exact afterData_dictChange s cur
  · exact .kept

theorem exec_init_dict {source : Bytes} {s t : State} (h : exec (.init source) s = .next t) :
    t.dict = initialDict := by
  cases h
  rfl

/-- A RESET code word of any format rebuilds the dictionary (R65). -/
theorem runClass_reset_dict {w : Width} {code : Nat} {s t : State} (h : runClass w .reset code s = .next t) :
    t.dict = initialDict := by
  obtain ⟨-, -, -, harm⟩ := runClass_next h
  cases harm
  rfl

theorem exec_dictChange {i : Instr} {s t : State} (h : exec i s = .next t) : DictChange s.dict t.dict := by
  obtain ⟨source, rfl⟩ | rfl | rfl | ⟨n, rfl⟩ | ⟨w, k, code, -, hrun⟩ := exec_shape i
  · rw [exec_init_dict h]
    exact .rebuilt
  · obtain ⟨-, rfl⟩ | ⟨-, rfl⟩ | ⟨-, rfl⟩ | ⟨-, r, o, c, -, rfl⟩ | ⟨-, code, c, -, harm⟩ := exec_step_cases h
    · exact .kept
    · exact .kept
    · exact .kept
    · exact .kept
    · exact classArm_dictChange (s := s.withReader c) rfl harm
  · obtain ⟨-, rfl⟩ | ⟨-, -, rfl⟩ := exec_sync_cases h <;> exact .kept
  · obtain ⟨-, rfl⟩ | ⟨-, -, -, -, ⟨r, o, c, -, rfl⟩ | ⟨v, c, -, rfl⟩⟩ := exec_readBits_cases h <;>
      exact .kept
  · rw [hrun] at h
    obtain ⟨-, -, hk, harm⟩ := runClass_next h
    exact classArm_dictChange hk harm

theorem step_dictChange {s t : State} (h : step s = .next t) : DictChange s.dict t.dict := by
  obtain ⟨-, rfl⟩ | ⟨c, cs, -, -, rfl⟩ | ⟨c, cs, i, -, -, hexec⟩ := step_cases h
  · exact .kept
  · exact .kept
  · exact exec_dictChange (s := s.withPending cs) hexec

/-- Settles O5: INIT and RESET write the initial dictionary, and a step keeps every entry or writes the initial
dictionary again. -/
theorem literalEntriesNeverChange : Obligations.LiteralEntriesNeverChange := by
  refine ⟨?_, ?_, ?_, ?_⟩
  · intro source s t h i
    rw [exec_init_dict h]
    exact initialDict_byte i
  · intro s t h i
    have hdict : t.dict = initialDict := by
      obtain h9 | h10 | h11 | h12 := h
      · exact runClass_reset_dict h9
      · exact runClass_reset_dict h10
      · exact runClass_reset_dict h11
      · exact runClass_reset_dict h12
    rw [hdict]
    exact initialDict_byte i
  · intro s t hlit h i
    exact (step_dictChange h).literal_kept (hlit i)
  · exact extractLsb'_rotr8 (by decide) (by decide) (by decide) (by decide)

/-! ### How far a read moves the cursor -/

/-- A cursor between operations is never past the end of its source (R11, R15). -/
theorem CursorInv.bitpos_le {c : BitCursor} (h : CursorInv c) : c.bitpos ≤ c.srcBits := by
  have := h.pos_le
  simp only [BitCursor.bitpos, BitCursor.srcBits]
  omega

/-- The cursor that INIT writes (R93). -/
theorem firstBit_inv (source : Bytes) : CursorInv ⟨source, 0, 0, 0#8⟩ where
  pos_le := Nat.zero_le _
  count_le := Nat.zero_le _
  value_lt := Nat.zero_lt_one
  value_eq h := absurd h (Nat.lt_irrefl 0)

/-- One pass of ReadBits that takes bits leaves a cursor as between operations, since fewer than 8 are left. -/
theorem refill_consume {c c' : BitCursor} {k : Nat} (hc : CursorInv c) (hr : refill c = some c')
    (hpos : 1 ≤ k) (hk : k ≤ c'.rcount) :
    CursorInv (c'.consume k) ∧ (c'.consume k).bitpos = c.bitpos + k := by
  obtain ⟨hheld, -, -, hbit⟩ := refill_some hr hc.holds
  obtain ⟨hleft, hmoved⟩ := consume_holds hheld hk
  have hlt : (c'.consume k).rcount ≠ 8 := by
    have := hheld.count_le
    rw [consume_rcount]
    omega
  exact ⟨hleft.cursorInv hlt, by rw [hmoved, hbit]⟩

/-- With passes enough, the loop of ReadBits gathers all the bits that are still wanted or fails with the source
exhausted (R54, R56). -/
theorem readLoop_advances {passes n got result : Nat} {c : BitCursor} (hc : CursorInv c) (hgot : got ≤ n)
    (hpasses : n ≤ got + passes) :
    (∃ v c', readLoop passes n got result c = (.value v, c') ∧ CursorInv c' ∧
      c'.bitpos + got = c.bitpos + n) ∨
    (∃ o c', readLoop passes n got result c = (.endOfStream n o, c') ∧ c'.srcPos = c.srcBytes.length) := by
  induction passes generalizing got result c with
  | zero => exact .inl ⟨result, c, rfl, hc, by omega⟩
  | succ passes ih =>
    obtain hmore | hdone := Nat.lt_or_ge got n
    · rcases hr : refill c with _ | c'
      · obtain ⟨-, hend⟩ := refill_none.mp hr
        exact .inr ⟨got, _, readLoop_fails hmore hr, le_antisymm hc.pos_le hend⟩
      · rw [readLoop_takes hmore hr]
        have hheld := refill_pos hr
        obtain ⟨hinv, hmoved⟩ := refill_consume (k := min (n - got) c'.rcount) hc hr (by omega) (by omega)
        have hrest := ih (got := got + min (n - got) c'.rcount)
          (result := result ||| c'.lowBits (min (n - got) c'.rcount) <<< got) hinv (by omega) (by omega)
        rw [hmoved, consume_srcBytes, refill_src hr] at hrest
        obtain ⟨v, c'', heq, hinv', hbit⟩ | hfail := hrest
        · exact .inl ⟨v, c'', heq, hinv', by omega⟩
        · exact .inr hfail
    · exact .inl ⟨result, c, readLoop_done hdone, hc, by omega⟩

/-- ReadBits takes `n` bits or fails with the source exhausted. -/
theorem readBits_advances (n : Nat) {c : BitCursor} (hc : CursorInv c) :
    (∃ v c', readBits n c = (.value v, c') ∧ CursorInv c' ∧ c'.srcBytes = c.srcBytes ∧
      c'.bitpos = c.bitpos + n) ∨
    (∃ o c', readBits n c = (.endOfStream n o, c') ∧ c'.srcPos = c.srcBytes.length) := by
  obtain ⟨v, c', heq, hinv, hbit⟩ | hfail :=
    readLoop_advances (passes := n) (n := n) (result := 0) hc (Nat.zero_le n) (by omega)
  · obtain ⟨hsrc, -, -⟩ := readBits_frame n c
    rw [show readBits n c = (.value v, c') from heq] at hsrc
    exact .inl ⟨v, c', heq, hinv, hsrc, hbit⟩
  · exact .inr hfail

/-! ### What a live STEP answers -/

theorem nine_le_bits (w : Width) : 9 ≤ w.bits := by
  cases w <;> decide

/-- No arm touches the reader. -/
theorem classArm_reader {k : CodeClass} {code : Nat} {s t : State}
    (hk : classify code s.dict.length = k) (h : classArm k code s = .next t) : t.reader = s.reader := by
  obtain ⟨-, rfl⟩ | ⟨-, rfl⟩ | ⟨-, -, -, rfl⟩ | ⟨-, -, -, cur, -, rfl⟩ | ⟨-, -, -, rfl⟩ :=
    classArm_cases hk h <;> rfl

/-- After a data code the phase is live again, whether or not the sequence is empty (R72). -/
theorem afterData_live (s : State) (cur : Bytes) : (s.afterData cur).phase.live = true := by
  by_cases hcur : cur = [] <;> simp [hcur, Phase.live]

/-- An arm answers a chunk and leaves the decoder ready for another STEP, or it answers End or Error (R62). -/
theorem classArm_outcome {k : CodeClass} {code : Nat} {s t : State} (hs : s.stepping = true)
    (hk : classify code s.dict.length = k) (h : classArm k code s = .next t) :
    (t.stepping = true ∧ ∃ cur, t.outcomes = .chunk cur :: s.outcomes) ∨
    t.outcomes = .finished :: s.outcomes ∨ ∃ e, t.outcomes = .error e :: s.outcomes := by
  obtain ⟨hinit, hmode, -⟩ := stepping_iff.mp hs
  have hdata (cur : Bytes) : (s.afterData cur).stepping = true :=
    stepping_iff.mpr ⟨hinit, hmode, afterData_live s cur⟩
  obtain ⟨-, rfl⟩ | ⟨-, rfl⟩ | ⟨-, -, -, rfl⟩ | ⟨-, -, -, cur, -, rfl⟩ | ⟨-, -, -, rfl⟩ :=
    classArm_cases hk h
  · exact .inr (.inl rfl)
  · exact .inl ⟨stepping_iff.mpr ⟨hinit, hmode, rfl⟩, [], rfl⟩
  · exact .inl ⟨hdata _, _, rfl⟩
  · exact .inl ⟨hdata cur, cur, rfl⟩
  · exact .inr (.inr ⟨_, rfl⟩)

/-- A live STEP runs the arm of a code word whose bits it took, or fails with the source exhausted (R62, R87). -/
theorem exec_step_live {s : State} (hs : s.stepping = true) (hc : CursorInv s.reader) :
    ∃ t, exec .step s = .next t ∧
      ((∃ code c, classArm (classify code s.dict.length) code (s.withReader c) = .next t ∧ t.reader = c ∧
          CursorInv c ∧ c.srcBytes = s.reader.srcBytes ∧ c.bitpos = s.reader.bitpos + s.width.bits) ∨
       (∃ n o, t.outcomes = .error (.endOfStream n o) :: s.outcomes ∧
          t.reader.srcPos = s.reader.srcBytes.length)) := by
  rw [execStep_live hs]
  obtain ⟨code, c, hread, hinv, hsrc, hbit⟩ | ⟨o, c, hread, hend⟩ := readBits_advances s.width.bits hc
  · obtain ⟨t, harm⟩ := classArm_total (code := code) (s := s.withReader c)
    exact ⟨t, (stepLive_value hs hread).trans harm,
      .inl ⟨code, c, harm, classArm_reader rfl harm, hinv, hsrc, hbit⟩⟩
  · exact ⟨_, stepLive_eos hread, .inr ⟨s.width.bits, o, rfl, hend⟩⟩

/-! ### The decode run -/

theorem drain_chunk {k : Nat} {s t : State} {buffer cur : Bytes} {os : List CmdOutcome}
    (h : exec .step s = .next t) (ho : t.outcomes = .chunk cur :: os) :
    drain (k + 1) s buffer = drain k t (buffer ++ cur) := by
  simp only [drain, h, ho]

theorem drain_finished {k : Nat} {s t : State} {buffer : Bytes} {os : List CmdOutcome}
    (h : exec .step s = .next t) (ho : t.outcomes = .finished :: os) :
    drain (k + 1) s buffer = some (buffer, .terminated) := by
  simp only [drain, h, ho]

theorem drain_error {k : Nat} {s t : State} {buffer : Bytes} {e : ErrRecord} {os : List CmdOutcome}
    (h : exec .step s = .next t) (ho : t.outcomes = .error e :: os) :
    drain (k + 1) s buffer = some (buffer, .failed e) := by
  simp only [drain, h, ho]

/-- A run ends where its STEPs, at 9 bits each, would take more bits than the source has (R75). -/
theorem drain_ends {k : Nat} {s : State} {buffer : Bytes} (hs : s.stepping = true) (hc : CursorInv s.reader)
    (hk : s.reader.srcBits < s.reader.bitpos + 9 * k) : ∃ r, drain k s buffer = some r := by
  induction k generalizing s buffer with
  | zero =>
    have := hc.bitpos_le
    omega
  | succ k ih =>
    obtain ⟨t, hstep, ⟨code, c, harm, rfl, hinv, hsrc, hbit⟩ | ⟨n, o, herror, -⟩⟩ := exec_step_live hs hc
    · obtain ⟨hlive, cur, hchunk⟩ | hfinished | ⟨e, herror⟩ :=
        classArm_outcome (s := s.withReader t.reader) hs rfl harm
      · rw [drain_chunk hstep hchunk]
        have := nine_le_bits s.width
        have hbits : t.reader.srcBits = s.reader.srcBits := by simp only [BitCursor.srcBits, hsrc]
        exact ih hlive hinv (by omega)
      · exact ⟨_, drain_finished hstep hfinished⟩
      · exact ⟨_, drain_error hstep herror⟩
    · exact ⟨_, drain_error hstep herror⟩

/-- Settles O51: a live STEP takes a code word's bits or fails at the end, and INIT leaves the run at bit 0, so
the bound of R75 leaves no bits for its STEPs. -/
theorem everyDecodeRunEnds : Obligations.EveryDecodeRunEnds := by
  constructor
  · intro s hs hc
    obtain ⟨t, hstep, ⟨code, c, -, rfl, -, -, hbit⟩ | hfail⟩ := exec_step_live hs hc
    · exact ⟨t, hstep, .inl ⟨nine_le_bits s.width, hbit⟩⟩
    · exact ⟨t, hstep, .inr hfail⟩
  · intro source
    obtain ⟨s, hinit, hs, hreader⟩ : ∃ s, exec (.init source) (State.preInit .decoder) = .next s ∧
        s.stepping = true ∧ s.reader = ⟨source, 0, 0, 0#8⟩ := ⟨_, rfl, rfl, rfl⟩
    have hc : CursorInv s.reader := by
      rw [hreader]
      exact firstBit_inv source
    have hbound : s.reader.srcBits < s.reader.bitpos + 9 * (8 * source.length / 9 + 1) := by
      simp only [hreader, BitCursor.srcBits, BitCursor.bitpos]
      omega
    obtain ⟨r, hr⟩ := drain_ends (buffer := []) hs hc hbound
    refine ⟨s, r, hinit, hr, ?_⟩
    rw [decodeRun, decodeFrom, hinit]
    exact hr

end Sys2Proof.Machine
end

section
/-! PROOFS. The statements about failure and recovery. -/

namespace Sys2Proof.Machine

/-! ### What only INIT and a live STEP write -/

/-- The registers of the LZW decoder are as they were; the reader, the marks and the outcomes are the reader's
and the host's side and may differ. -/
structure DecoderKept (s t : State) : Prop where
  phase : t.phase = s.phase
  err : t.err = s.err
  dict : t.dict = s.dict
  width : t.width = s.width
  prev : t.prev = s.prev

theorem refuse_decoderKept (s : State) : DecoderKept s s.refuse := ⟨rfl, rfl, rfl, rfl, rfl⟩

theorem emit_decoderKept (s : State) (o : CmdOutcome) : DecoderKept s (s.emit o) := ⟨rfl, rfl, rfl, rfl, rfl⟩

theorem withReader_emit_decoderKept (s : State) (c : BitCursor) (o : CmdOutcome) :
    DecoderKept s ((s.withReader c).emit o) := ⟨rfl, rfl, rfl, rfl, rfl⟩

/-- SYNC writes the reader alone, in every phase (R57). -/
theorem exec_sync_decoderKept {s t : State} (h : exec .sync s = .next t) : DecoderKept s t := by
  obtain ⟨-, rfl⟩ | ⟨-, -, rfl⟩ := exec_sync_cases h
  · exact refuse_decoderKept s
  · exact withReader_emit_decoderKept s _ _

/-- READ_BITS writes the reader alone, in every phase and where it fails too (R56). -/
theorem exec_readBits_decoderKept {n : Nat} {s t : State} (h : exec (.readBits n) s = .next t) :
    DecoderKept s t := by
  obtain ⟨-, rfl⟩ | ⟨-, -, -, -, ⟨r, o, c, -, rfl⟩ | ⟨v, c, -, rfl⟩⟩ := exec_readBits_cases h
  · exact refuse_decoderKept s
  · exact withReader_emit_decoderKept s c _
  · exact withReader_emit_decoderKept s c _

theorem not_stepping_of_not_live {s : State} (hphase : s.phase.live = false) : ¬s.stepping = true := by
  intro hs
  obtain ⟨-, -, hlive⟩ := stepping_iff.mp hs
  simp [hphase] at hlive

/-- STEP reads no code word in EXHAUSTED and FAILED, so it only answers there (R63). -/
theorem exec_step_decoderKept {s t : State} (hphase : s.phase.live = false) (h : exec .step s = .next t) :
    DecoderKept s t := by
  have hidle : ¬s.stepping = true := not_stepping_of_not_live hphase
  obtain ⟨-, rfl⟩ | ⟨-, rfl⟩ | ⟨-, rfl⟩ | ⟨hs, -⟩ | ⟨hs, -⟩ := exec_step_cases h
  · exact refuse_decoderKept s
  · exact emit_decoderKept s _
  · exact emit_decoderKept s _
  · exact absurd hs hidle
  · exact absurd hs hidle

/-- In EXHAUSTED and FAILED every instruction but INIT keeps the decoder; a code word answers no next state
there, since no STEP runs it. -/
theorem exec_decoderKept {i : Instr} {s t : State} (hphase : s.phase.live = false)
    (hinit : ∀ source, i ≠ .init source) (h : exec i s = .next t) : DecoderKept s t := by
  obtain ⟨source, rfl⟩ | rfl | rfl | ⟨n, rfl⟩ | ⟨w, k, code, -, hrun⟩ := exec_shape i
  · exact absurd rfl (hinit source)
  · exact exec_step_decoderKept hphase h
  · exact exec_sync_decoderKept h
  · exact exec_readBits_decoderKept h
  · rw [hrun] at h
    obtain ⟨hs, -⟩ := runClass_next h
    exact absurd hs (not_stepping_of_not_live hphase)

/-- INIT answers in every state, with the decoder at its start and no error (R93). -/
theorem exec_init_next (source : Bytes) (s : State) :
    ∃ t, exec (.init source) s = .next t ∧ t.phase = .justReset ∧ t.err = .none :=
  ⟨_, rfl, rfl, rfl⟩

/-- Settles O44: FAILED is not live, so every instruction but INIT keeps the decoder, and STEP answers the
recorded error. -/
theorem onlyInitLeavesFailed : Obligations.OnlyInitLeavesFailed := by
  refine ⟨?_, ?_, exec_init_next⟩
  · intro i s t hfailed h hinit
    have hphase : s.phase.live = false := by rw [hfailed]; rfl
    obtain ⟨hkept, herr, hdict, hwidth, hprev⟩ := exec_decoderKept hphase hinit h
    exact ⟨hkept.trans hfailed, herr, hdict, hwidth, hprev⟩
  · intro s hinit hmode hfailed
    exact exec_step_failed hinit hmode hfailed

end Sys2Proof.Machine
end

section
/-! PROOFS. The statements about reset and hazards. -/

namespace Sys2Proof.Machine

/-! ### What INIT writes -/

/-- The state after INIT over `source`, field by field (R93). -/
def State.afterInit (s : State) (source : Bytes) : State where
  cfgMode := s.cfgMode
  inited := true
  refusalMark := s.refusalMark
  reader := ⟨source, 0, 0, 0#8⟩
  width := .w9
  dict := initialDict
  prev := []
  phase := .justReset
  err := .none
  pending := s.pending
  outcomes := .done :: s.outcomes

theorem exec_init (source : Bytes) (s : State) : exec (.init source) s = .next (s.afterInit source) := rfl

/-- Settles O1: INIT has no premise to test, so its updates composed are the state R93 lists. -/
theorem initBeginsANewInput : Obligations.InitBeginsANewInput := by
  exact exec_init

theorem decodeRun_eq_drain (source : Bytes) :
    decodeRun source = drain (runBound source) ((State.preInit .decoder).afterInit source) [] := by
  rw [decodeRun, decodeFrom, exec_init]

theorem runPosition_eq_drainPosition (source : Bytes) :
    runPosition source = drainPosition (runBound source) ((State.preInit .decoder).afterInit source) := by
  rw [runPosition, exec_init]

/-! ### Which stream bits a read answers -/

/-- The residual bits are the stream bits from the bit position on (R13, R15). -/
theorem Holds.getLsbD_rvalue {c : BitCursor} (hc : Holds c) {j : Nat} (hj : j < c.rcount) :
    c.rvalue.getLsbD j = streamBit c.srcBytes (c.bitpos + j) := by
  obtain ⟨hpos, b, hbyte, hvalue⟩ := hc.value_eq (by omega)
  have hcount := hc.count_le
  have hdiv : (c.bitpos + j) / 8 = c.srcPos - 1 := by
    simp only [BitCursor.bitpos]
    omega
  have hmod : (c.bitpos + j) % 8 = 8 - c.rcount + j := by
    simp only [BitCursor.bitpos]
    omega
  rw [streamBit, hdiv, hmod, hbyte, hvalue, BitVec.getLsbD_ushiftRight]

theorem Holds.testBit_lowBits {c : BitCursor} (hc : Holds c) {k : Nat} (hk : k ≤ c.rcount) (j : Nat) :
    (c.lowBits k).testBit j = (decide (j < k) && streamBit c.srcBytes (c.bitpos + j)) := by
  rw [BitCursor.lowBits, Nat.and_two_pow_sub_one_eq_mod, Nat.testBit_mod_two_pow]
  by_cases hj : j < k
  · rw [← hc.getLsbD_rvalue (by omega), BitVec.getLsbD]
  · simp [hj]

/-- Where the wanted bits are left, the loop of ReadBits adds them above the bits gathered (R42, R54). -/
theorem readLoop_has {passes n got result : Nat} {c : BitCursor} (hc : CursorInv c) (hgot : got ≤ n)
    (hpasses : n ≤ got + passes) (hhas : c.has (n - got)) :
    ∃ v c', readLoop passes n got result c = (.value v, c') ∧ ∀ i, v.testBit i =
      (result.testBit i || (decide (got ≤ i ∧ i < n) && streamBit c.srcBytes (c.bitpos + (i - got)))) := by
  induction passes generalizing got result c with
  | zero =>
    have hempty (i : Nat) : ¬(got ≤ i ∧ i < n) := by omega
    exact ⟨result, c, rfl, fun i => by simp [hempty i]⟩
  | succ passes ih =>
    obtain hmore | hdone := Nat.lt_or_ge got n
    · rcases hr : refill c with _ | c'
      · obtain ⟨hcount, hend⟩ := refill_none.mp hr
        simp only [BitCursor.has, BitCursor.bitpos, BitCursor.srcBits] at hhas
        omega
      · rw [readLoop_takes hmore hr]
        have hheld := refill_pos hr
        obtain ⟨hholds, -, hsrc, hbit⟩ := refill_some hr hc.holds
        generalize hk : min (n - got) c'.rcount = k
        obtain ⟨hinv, hmoved⟩ := refill_consume (k := k) hc hr (by omega) (by omega)
        have hrest : (c'.consume k).has (n - (got + k)) := by
          simp only [BitCursor.has, BitCursor.srcBits, consume_srcBytes, hmoved, hsrc] at hhas ⊢
          omega
        obtain ⟨v, c'', heq, hbits⟩ :=
          ih (result := result ||| c'.lowBits k <<< got) hinv (by omega) (by omega) hrest
        refine ⟨v, c'', heq, fun i => ?_⟩
        rw [hbits, Nat.testBit_or, Nat.testBit_shiftLeft, hholds.testBit_lowBits (by omega), hmoved,
          consume_srcBytes, hsrc, hbit]
        obtain hlow | hnow | hlater : i < got ∨ (got ≤ i ∧ i < got + k) ∨ got + k ≤ i := by omega
        · simp [show ¬got ≤ i by omega, show ¬got + k ≤ i by omega]
        · simp [hnow.1, show i - got < k by omega, show ¬got + k ≤ i by omega, show i < n by omega]
        · simp [hlater, show ¬i - got < k by omega, show got ≤ i by omega,
            show c.bitpos + k + (i - (got + k)) = c.bitpos + (i - got) by omega]
    · have hempty (i : Nat) : ¬(got ≤ i ∧ i < n) := by omega
      exact ⟨result, c, readLoop_done hdone, fun i => by simp [hempty i]⟩

/-- A read of bits that are left answers a value, whose bits are the stream bits from the bit position on. -/
theorem readBits_has {n : Nat} {c : BitCursor} (hc : CursorInv c) (hhas : c.has n) :
    ∃ v c', readBits n c = (.value v, c') ∧
      ∀ i, v.testBit i = (decide (i < n) && streamBit c.srcBytes (c.bitpos + i)) := by
  obtain ⟨v, c', heq, hbits⟩ := readLoop_has (passes := n) (result := 0) hc (Nat.zero_le n) (by omega) hhas
  exact ⟨v, c', heq, fun i => by simp [hbits]⟩

/-- A read that answers a value has taken its bits, and leaves a cursor as between operations. -/
theorem readBits_value {n v : Nat} {c c' : BitCursor} (hc : CursorInv c) (h : readBits n c = (.value v, c')) :
    CursorInv c' ∧ c'.srcBytes = c.srcBytes ∧ c'.bitpos = c.bitpos + n := by
  obtain ⟨_, _, heq, hleft⟩ | ⟨_, _, heq, -⟩ := readBits_advances n hc
  · cases h.symm.trans heq
    exact hleft
  · cases h.symm.trans heq

/-! ### Two sources with the same bits up to a position -/

/-- Two cursors at the same bit of two sources that have the same stream bits below position `limit`. The
residual bits at or above `limit` may differ. -/
structure Twin (limit : Nat) (c d : BitCursor) : Prop where
  left : CursorInv c
  right : CursorInv d
  bitpos_eq : d.bitpos = c.bitpos
  agree : ∀ k, k < limit → k < 8 * d.srcBytes.length ∧ streamBit d.srcBytes k = streamBit c.srcBytes k

/-- A read that stays below the limit answers the same value over both sources. -/
theorem Twin.readBits {limit n v : Nat} {c c' d : BitCursor} (htwin : Twin limit c d)
    (hread : Machine.readBits n c = (.value v, c')) (hlimit : c'.bitpos ≤ limit) :
    ∃ d', Machine.readBits n d = (.value v, d') ∧ Twin limit c' d' := by
  obtain ⟨hinv, hsrc, hbit⟩ := readBits_value htwin.left hread
  have hhas : c.has n := by
    have := hinv.bitpos_le
    simp only [BitCursor.has, BitCursor.srcBits, hsrc] at this ⊢
    omega
  have hhas' : d.has n := by
    have hright := htwin.right.bitpos_le
    have hpos := htwin.bitpos_eq
    simp only [BitCursor.has, BitCursor.srcBits] at hright ⊢
    obtain rfl | hn := Nat.eq_zero_or_pos n
    · exact hright
    · obtain ⟨hlast, -⟩ := htwin.agree (c.bitpos + n - 1) (by omega)
      omega
  obtain ⟨v₁, c₁, hread₁, hbits₁⟩ := readBits_has htwin.left hhas
  cases hread.symm.trans hread₁
  obtain ⟨w, d', hread', hbits⟩ := readBits_has htwin.right hhas'
  have hvalue : w = v := by
    refine Nat.eq_of_testBit_eq fun i => ?_
    rw [hbits, hbits₁, htwin.bitpos_eq]
    by_cases hi : i < n
    · obtain ⟨-, hsame⟩ := htwin.agree (c.bitpos + i) (by omega)
      rw [hsame]
    · simp [hi]
  obtain ⟨hinv', hsrc', hbit'⟩ := readBits_value htwin.right hread'
  subst hvalue
  refine ⟨d', hread', hinv, hinv', by rw [hbit', hbit, htwin.bitpos_eq], ?_⟩
  rw [hsrc, hsrc']
  exact htwin.agree

/-- No arm reads the reader: with another cursor it answers the same, that cursor kept. -/
theorem classArm_withReader {k : CodeClass} {code : Nat} {s t : State} (d : BitCursor)
    (h : classArm k code s = .next t) : classArm k code (s.withReader d) = .next (t.withReader d) := by
  have hentry (h : entryArm code s = .next t) : entryArm code (s.withReader d) = .next (t.withReader d) := by
    obtain ⟨heof, hreset, cur, hcur, rfl⟩ := entryArm_next h
    exact entryArm_eq heof hreset hcur
  cases k with
  | eof => cases h; rfl
  | reset => cases h; rfl
  | kwkwk =>
    cases h
    rw [kwkwkArm_eq]
    exact congrArg _ (kwkwkArm_eq (s.withReader d))
  | lit => exact hentry h
  | dict => exact hentry h
  | corrupt => cases h; rfl

/-! ### A STEP that has its code word -/

/-- STEP from `s` reads a whole code word and the arm of its class answers `t` (R62). -/
def TakesCode (s t : State) : Prop :=
  ∃ code, readBits s.width.bits s.reader = (.value code, t.reader) ∧
    classArm (classify code s.dict.length) code (s.withReader t.reader) = .next t

theorem TakesCode.exec_step {s t : State} (h : TakesCode s t) (hs : s.stepping = true) :
    exec .step s = .next t := by
  obtain ⟨code, hread, harm⟩ := h
  rw [execStep_live hs, stepLive_value hs hread, harm]

/-- A live STEP without its code word answers an error (R87), so with any other outcome it has taken one. -/
theorem takesCode_of_outcome {s t : State} {o : CmdOutcome} {os : List CmdOutcome} (hs : s.stepping = true)
    (h : exec .step s = .next t) (ho : t.outcomes = o :: os) (hok : ∀ e, o ≠ .error e) : TakesCode s t := by
  rw [execStep_live hs] at h
  rcases hread : readBits s.width.bits s.reader with ⟨code | ⟨r, got⟩, c⟩
  · rw [stepLive_value hs hread] at h
    obtain rfl : t.reader = c := classArm_reader (s := s.withReader c) rfl h
    exact ⟨code, hread, h⟩
  · rw [stepLive_eos hread] at h
    cases h
    cases ho
    exact absurd rfl (hok _)

theorem TakesCode.advances {s t : State} (h : TakesCode s t) (hc : CursorInv s.reader) :
    CursorInv t.reader ∧ t.reader.srcBytes = s.reader.srcBytes ∧
      t.reader.bitpos = s.reader.bitpos + s.width.bits := by
  obtain ⟨code, hread, -⟩ := h
  exact readBits_value hc hread

/-- After a chunk the decoder is ready for another STEP. -/
theorem TakesCode.stepping {s t : State} {cur : Bytes} {os : List CmdOutcome} (h : TakesCode s t)
    (hs : s.stepping = true) (ho : t.outcomes = .chunk cur :: os) : t.stepping = true := by
  obtain ⟨code, -, harm⟩ := h
  obtain ⟨hlive, -⟩ | hfinished | ⟨e, herror⟩ := classArm_outcome (s := s.withReader t.reader) hs rfl harm
  · exact hlive
  · simp [ho] at hfinished
  · simp [ho] at herror

/-- A code word below the limit is taken over both sources alike: the states differ in their readers only. -/
theorem TakesCode.twin {limit : Nat} {s t : State} {d : BitCursor} (h : TakesCode s t)
    (htwin : Twin limit s.reader d) (hlimit : t.reader.bitpos ≤ limit) :
    ∃ d', TakesCode (s.withReader d) (t.withReader d') ∧ Twin limit t.reader d' := by
  obtain ⟨code, hread, harm⟩ := h
  obtain ⟨d', hread', htwin'⟩ := htwin.readBits hread hlimit
  exact ⟨d', ⟨code, hread', classArm_withReader (s := s.withReader t.reader) d' harm⟩, htwin'⟩

/-! ### Runs that end with End, without a bound on their STEPs -/

/-- STEPs from `s` answer chunks, together `out`, and then End, which leaves the bit position at `pos`. -/
inductive EndsAt : State → Bytes → Nat → Prop where
  | eof {s t : State} {os : List CmdOutcome} (hcode : TakesCode s t) (ho : t.outcomes = .finished :: os) :
      EndsAt s [] t.reader.bitpos
  | chunk {s t : State} {cur out : Bytes} {os : List CmdOutcome} {pos : Nat} (hcode : TakesCode s t)
      (ho : t.outcomes = .chunk cur :: os) (hrest : EndsAt t out pos) : EndsAt s (cur ++ out) pos

theorem drainPosition_chunk {k : Nat} {s t : State} {cur : Bytes} {os : List CmdOutcome}
    (h : exec .step s = .next t) (ho : t.outcomes = .chunk cur :: os) :
    drainPosition (k + 1) s = drainPosition k t := by
  simp only [drainPosition, h, ho]

theorem drainPosition_finished {k : Nat} {s t : State} {os : List CmdOutcome}
    (h : exec .step s = .next t) (ho : t.outcomes = .finished :: os) :
    drainPosition (k + 1) s = t.reader.bitpos := by
  simp only [drainPosition, h, ho]

/-- All that the first STEP of a run with End can be. -/
theorem drain_terminated_cases {k : Nat} {s : State} {buffer result : Bytes}
    (h : drain (k + 1) s buffer = some (result, .terminated)) :
    ∃ t os, exec .step s = .next t ∧
      ((t.outcomes = .finished :: os ∧ result = buffer) ∨
       ∃ cur, t.outcomes = .chunk cur :: os ∧ drain k t (buffer ++ cur) = some (result, .terminated)) := by
  rw [drain] at h
  split at h
  · next t hstep =>
    split at h
    · next cur os ho => exact ⟨t, os, hstep, .inr ⟨cur, ho, h⟩⟩
    · next os ho => cases h; exact ⟨t, os, hstep, .inl ⟨ho, rfl⟩⟩
    · cases h
    · cases h
  · cases h

theorem endsAt_of_drain {k : Nat} {s : State} {buffer result : Bytes} (hs : s.stepping = true)
    (h : drain k s buffer = some (result, .terminated)) :
    ∃ out, result = buffer ++ out ∧ EndsAt s out (drainPosition k s) := by
  induction k generalizing s buffer with
  | zero => cases h
  | succ k ih =>
    obtain ⟨t, os, hstep, ⟨ho, rfl⟩ | ⟨cur, ho, hrest⟩⟩ := drain_terminated_cases h
    · rw [drainPosition_finished hstep ho]
      exact ⟨[], (List.append_nil result).symm, .eof (takesCode_of_outcome hs hstep ho (by simp)) ho⟩
    · have hcode : TakesCode s t := takesCode_of_outcome hs hstep ho (by simp)
      obtain ⟨out, rfl, hends⟩ := ih (hcode.stepping hs ho) hrest
      rw [drainPosition_chunk hstep ho]
      exact ⟨cur ++ out, List.append_assoc buffer cur out, .chunk hcode ho hends⟩

/-- The bound of R75 is enough for a run that ends with End. -/
theorem EndsAt.drain {k pos : Nat} {s : State} {buffer out : Bytes} (h : EndsAt s out pos)
    (hs : s.stepping = true) (hc : CursorInv s.reader) (hk : s.reader.srcBits < s.reader.bitpos + 9 * k) :
    Machine.drain k s buffer = some (buffer ++ out, .terminated) ∧ drainPosition k s = pos := by
  induction h generalizing k buffer with
  | eof hcode ho =>
    cases k with
    | zero => have := hc.bitpos_le; omega
    | succ k =>
      have hstep := hcode.exec_step hs
      exact ⟨by rw [drain_finished hstep ho, List.append_nil], drainPosition_finished hstep ho⟩
  | @chunk s t cur out os pos hcode ho hrest ih =>
    cases k with
    | zero => have := hc.bitpos_le; omega
    | succ k =>
      have hstep := hcode.exec_step hs
      obtain ⟨hinv, hsrc, hbit⟩ := hcode.advances hc
      have hwidth := nine_le_bits s.width
      have hbits : t.reader.srcBits = s.reader.srcBits := by simp only [BitCursor.srcBits, hsrc]
      rw [drain_chunk hstep ho, drainPosition_chunk hstep ho, ← List.append_assoc]
      exact ih (hcode.stepping hs ho) hinv (by omega)

theorem EndsAt.bitpos_le {s : State} {out : Bytes} {pos : Nat} (h : EndsAt s out pos)
    (hc : CursorInv s.reader) : s.reader.bitpos ≤ pos := by
  induction h with
  | eof hcode ho =>
    obtain ⟨-, -, hbit⟩ := hcode.advances hc
    omega
  | chunk hcode ho hrest ih =>
    obtain ⟨hinv, -, hbit⟩ := hcode.advances hc
    have := ih hinv
    omega

/-- A run with End sees only the bits below the position where it ends, so over a source that has these bits it
ends alike. -/
theorem EndsAt.twin {s : State} {out : Bytes} {pos : Nat} {d : BitCursor} (h : EndsAt s out pos)
    (htwin : Twin pos s.reader d) : EndsAt (s.withReader d) out pos := by
  induction h generalizing d with
  | eof hcode ho =>
    obtain ⟨d', hcode', htwin'⟩ := hcode.twin htwin le_rfl
    rw [← htwin'.bitpos_eq]
    exact .eof hcode' ho
  | chunk hcode ho hrest ih =>
    obtain ⟨hinv, -, -⟩ := hcode.advances htwin.left
    obtain ⟨d', hcode', htwin'⟩ := hcode.twin htwin (hrest.bitpos_le hinv)
    exact .chunk hcode' ho (ih htwin')

/-- Settles O53: the run over the first source is a run with End at its bit position, so it is one over the other
source too, and the other source's own bound of R75 is enough for it. -/
theorem trailingDataNeverRead : Obligations.TrailingDataNeverRead := by
  intro source other buffer hrun hagree
  rw [decodeRun_eq_drain] at hrun
  rw [runPosition_eq_drainPosition source] at hagree
  obtain ⟨_, rfl, hends⟩ := endsAt_of_drain rfl hrun
  have hother : EndsAt ((State.preInit .decoder).afterInit other) buffer
      (drainPosition (runBound source) ((State.preInit .decoder).afterInit source)) :=
    hends.twin (d := ⟨other, 0, 0, 0#8⟩) ⟨firstBit_inv source, firstBit_inv other, rfl, hagree⟩
  have hbound : 8 * other.length < 0 + 9 * runBound other := by
    simp only [runBound]
    omega
  rw [decodeRun_eq_drain, runPosition_eq_drainPosition, runPosition_eq_drainPosition]
  exact hother.drain (buffer := []) rfl (firstBit_inv other) hbound

end Sys2Proof.Machine
end

section
/-! PROOFS. What a read of the bit-stream reader answers, and the packed code stream. -/

namespace Sys2Proof.Machine

/-! ### A number and its low bits -/

theorem mod_two_pow_eq_sum_testBit (v n : Nat) :
    v % 2 ^ n = ∑ i ∈ Finset.range n, if v.testBit i then 2 ^ i else 0 := by
  induction n with
  | zero => simp [Nat.mod_one]
  | succ n ih =>
    rw [Finset.sum_range_succ, ← ih, Nat.mod_pow_succ, ← Nat.toNat_testBit]
    cases v.testBit n <;> simp

/-! ### The sum of stream bits -/

theorem streamSum_lt (src : Bytes) (p n : Nat) : streamSum src p n < 2 ^ n := by
  induction n with
  | zero => simp [streamSum]
  | succ n ih =>
    rw [streamSum, Finset.sum_range_succ, ← streamSum, pow_succ]
    split <;> omega

/-- The stream bits from `p` on, read in two parts (R31). -/
theorem streamSum_add (src : Bytes) (p m n : Nat) :
    streamSum src p (m + n) = streamSum src p m + 2 ^ m * streamSum src (p + m) n := by
  simp only [streamSum, Finset.sum_range_add, Finset.mul_sum, mul_ite, mul_zero, pow_add, add_assoc]

/-- Stream bits that lie in one byte are a field of that byte (R30). -/
theorem streamSum_in_byte {src : Bytes} {k r n : Nat} {b : Byte} (hb : src[k]? = some b) (hfit : r + n ≤ 8) :
    streamSum src (8 * k + r) n = b.toNat / 2 ^ r % 2 ^ n := by
  rw [mod_two_pow_eq_sum_testBit, streamSum]
  refine Finset.sum_congr rfl fun i hi => ?_
  have hlt : i < n := Finset.mem_range.mp hi
  have hbit : streamBit src (8 * k + r + i) = (b.toNat / 2 ^ r).testBit i := by
    rw [streamBit, show (8 * k + r + i) / 8 = k by omega, show (8 * k + r + i) % 8 = r + i by omega, hb,
      Nat.testBit_div_two_pow, Nat.add_comm i r, BitVec.testBit_toNat]
  rw [hbit]

/-- A number whose bits are the stream bits from `p` on is their sum (R42). -/
theorem eq_streamSum {src : Bytes} {p n v : Nat}
    (h : ∀ i, v.testBit i = (decide (i < n) && streamBit src (p + i))) : v = streamSum src p n := by
  have hlt : v < 2 ^ n := Nat.lt_pow_two_of_testBit v fun i hi => by simp [h, Nat.not_lt.mpr hi]
  rw [← Nat.mod_eq_of_lt hlt, mod_two_pow_eq_sum_testBit, streamSum]
  refine Finset.sum_congr rfl fun i hi => ?_
  rw [h, decide_eq_true (Finset.mem_range.mp hi), Bool.true_and]

/-! ### ReadBits, with its bits left and without -/

/-- Where the source holds the bits, they are the value, and the cursor moves past them (R42, R54). -/
theorem readBits_eq_value {n : Nat} {c : BitCursor} (hc : CursorInv c) (hhas : c.has n) :
    ∃ c', readBits n c = (.value (streamSum c.srcBytes c.bitpos n), c') ∧
      c'.srcBytes = c.srcBytes ∧ c'.bitpos = c.bitpos + n ∧ CursorInv c' := by
  obtain ⟨v, c', hread, hbits⟩ := readBits_has hc hhas
  obtain ⟨hinv, hsrc, hpos⟩ := readBits_value hc hread
  rw [eq_streamSum hbits] at hread
  exact ⟨c', hread, hsrc, hpos, hinv⟩

/-- The cursor at the end of its source, with no bit held (R56). -/
def BitCursor.atEnd (c : BitCursor) : BitCursor := ⟨c.srcBytes, c.srcBytes.length, 0, 0#8⟩

theorem atEnd_inv (c : BitCursor) : CursorInv c.atEnd :=
  ⟨le_rfl, Nat.zero_le _, by simp [BitCursor.atEnd], fun h => absurd h (Nat.lt_irrefl 0)⟩

/-- Where the wanted bits are not all left, the loop of ReadBits gathers the bits that are and fails (R56). -/
theorem readLoop_not_has {passes n got result : Nat} {c : BitCursor} (hc : CursorInv c) (hgot : got ≤ n)
    (hpasses : n ≤ got + passes) (hhas : ¬c.has (n - got)) :
    readLoop passes n got result c = (.endOfStream n (got + (c.srcBits - c.bitpos)), c.atEnd) := by
  have hle := hc.bitpos_le
  induction passes generalizing got result c with
  | zero => simp only [BitCursor.has] at hhas; omega
  | succ passes ih =>
    have hmore : got < n := by simp only [BitCursor.has] at hhas; omega
    rcases hr : refill c with _ | c'
    · obtain ⟨hcount, hend⟩ := refill_none.mp hr
      have hpos : c.srcPos = c.srcBytes.length := le_antisymm hc.pos_le hend
      have hleft : c.srcBits - c.bitpos = 0 := by
        simp only [BitCursor.srcBits, BitCursor.bitpos]; omega
      rw [readLoop_fails hmore hr, hleft, BitCursor.atEnd, ← hpos, Nat.add_zero, ← hcount]
    · rw [readLoop_takes hmore hr]
      have hheld := refill_pos hr
      generalize hk : min (n - got) c'.rcount = k
      obtain ⟨hinv, hmoved⟩ := refill_consume (k := k) hc hr (by omega) (by omega)
      have hsrc : (c'.consume k).srcBytes = c.srcBytes := by
        rw [consume_srcBytes, refill_src hr]
      have hbits : (c'.consume k).srcBits = c.srcBits := by simp only [BitCursor.srcBits, hsrc]
      have hle' := hinv.bitpos_le
      have hend : (c'.consume k).atEnd = c.atEnd := by simp only [BitCursor.atEnd, hsrc]
      simp only [BitCursor.has] at hhas
      rw [ih hinv (by omega) (by omega) (by simp only [BitCursor.has]; omega) hle', hend, hbits, hmoved,
        show got + k + (c.srcBits - (c.bitpos + k)) = got + (c.srcBits - c.bitpos) by omega]

theorem readBits_eq_endOfStream {n : Nat} {c : BitCursor} (hc : CursorInv c) (hhas : ¬c.has n) :
    readBits n c = (.endOfStream n (c.srcBits - c.bitpos), c.atEnd) := by
  have h := readLoop_not_has (passes := n) (result := 0) hc (Nat.zero_le n) (by omega) hhas
  rwa [Nat.zero_add] at h

/-- A read of any count, successful or not, leaves a legal cursor (R14). -/
theorem readBits_inv {c : BitCursor} (hc : CursorInv c) (n : Nat) : CursorInv (readBits n c).2 := by
  by_cases hhas : c.has n
  · obtain ⟨c', hread, -, -, hinv⟩ := readBits_eq_value hc hhas
    rwa [hread]
  · rw [readBits_eq_endOfStream hc hhas]
    exact atEnd_inv c

/-- Settles O6: the bits of the value are the stream bits, so it is their sum; without them the read fails. -/
theorem readBitsReturnsTheNextStreamBits : Obligations.ReadBitsReturnsTheNextStreamBits := by
  intro n c _ _ hc
  refine ⟨readBits_eq_value hc, fun hhas v hv => ?_⟩
  rw [readBits_eq_endOfStream hc hhas] at hv
  cases hv

/-- Settles O7: by induction on the passes of the loop, which gather what is left before one finds no byte. -/
theorem readBitsPastTheEndFails : Obligations.ReadBitsPastTheEndFails := by
  intro n c _ _ hc hhas
  exact readBits_eq_endOfStream hc hhas

/-- Settles O9: Sync drops the residual bits, and a read ends in one of two legal cursors. -/
theorem readerKeepsTheCursorInvariant : Obligations.ReaderKeepsTheCursorInvariant := by
  exact ⟨firstBit_inv, fun c hc => ⟨syncCursor_inv hc, readBits_inv hc⟩⟩

/-- Settles O10: fewer than 8 bits of the last byte taken are unread, and none where no byte is taken. -/
theorem lookaheadIsAtMostOneByte : Obligations.LookaheadIsAtMostOneByte := by
  intro c hc
  have hcount := hc.count_le
  obtain hnone | hheld := Nat.eq_zero_or_pos c.rcount
  · simp only [BitCursor.bitpos]; omega
  · obtain ⟨htaken, -⟩ := hc.value_eq hheld
    simp only [BitCursor.bitpos]; omega

/-- Settles O11: the bits wanted split where the second byte begins, and each part is a field of its byte. -/
theorem codeWordsSpanBytesLowBitsFirst : Obligations.CodeWordsSpanBytesLowBitsFirst := by
  intro b0 b1
  have hc : CursorInv ⟨[b0, b1], 0, 0, 0#8⟩ := firstBit_inv _
  have h0 : [b0, b1][0]? = some b0 := rfl
  have h1 : [b0, b1][1]? = some b1 := rfl
  have hlt0 := b0.isLt
  have hlt1 := b1.isLt
  constructor
  · obtain ⟨c', hread, -⟩ := readBits_eq_value (n := 9) hc (by simp [BitCursor.bitpos, BitCursor.srcBits])
    have hlow := streamSum_in_byte (r := 0) (n := 8) h0 (by omega)
    have hhigh := streamSum_in_byte (r := 0) (n := 1) h1 (by omega)
    rw [hread]
    refine congrArg ReadResult.value ((streamSum_add [b0, b1] 0 8 1).trans ?_)
    norm_num at hlow hhigh ⊢
    rw [hlow, hhigh]; omega
  · obtain ⟨c', hread, hsrc, hpos, hinv⟩ :=
      readBits_eq_value (n := 4) hc (by simp [BitCursor.bitpos, BitCursor.srcBits])
    have hpos4 : c'.bitpos = 4 := hpos
    obtain ⟨c'', hread', -⟩ := readBits_eq_value (n := 12) hinv (by
      simp [BitCursor.srcBits, hsrc, hpos4])
    have hlow := streamSum_in_byte (r := 4) (n := 4) h0 (by omega)
    have hhigh := streamSum_in_byte (r := 0) (n := 8) h1 (by omega)
    rw [hread, hread', hsrc, hpos4]
    refine congrArg ReadResult.value ((streamSum_add [b0, b1] 4 4 8).trans ?_)
    norm_num at hlow hhigh ⊢
    rw [hlow, hhigh]; omega

/-! ### The packed code stream -/

theorem codeBits_length (n code : Nat) : (codeBits n code).length = n := by
  induction n generalizing code with
  | zero => rfl
  | succ n ih => simp [codeBits, ih]

theorem codeBits_getElem? {n i : Nat} (code : Nat) (hi : i < n) :
    (codeBits n code)[i]? = some (code.testBit i) := by
  induction n generalizing code i with
  | zero => omega
  | succ n ih =>
    cases i with
    | zero => simp [codeBits, Nat.testBit_zero]
    | succ i => rw [codeBits, List.getElem?_cons_succ, ih _ (by omega), Nat.testBit_succ]

theorem bitsValue_testBit (bits : List Bool) (j : Nat) : (bitsValue bits).testBit j = bits[j]?.getD false := by
  induction bits generalizing j with
  | nil => simp [bitsValue]
  | cons b bits ih =>
    cases j with
    | zero => cases b <;> simp [bitsValue, Nat.testBit_zero]
    | succ j =>
      have hhalf : bitsValue (b :: bits) / 2 = bitsValue bits := by cases b <;> simp [bitsValue]; omega
      rw [Nat.testBit_succ, hhalf, ih, List.getElem?_cons_succ]

theorem streamBit_cons_low {x : Byte} {xs : Bytes} {j : Nat} (hj : j < 8) :
    streamBit (x :: xs) j = x.getLsbD j := by
  rw [streamBit, Nat.div_eq_of_lt hj, Nat.mod_eq_of_lt hj]; rfl

theorem streamBit_cons_high {x : Byte} {xs : Bytes} {j : Nat} (hj : 8 ≤ j) :
    streamBit (x :: xs) j = streamBit xs (j - 8) := by
  rw [streamBit, streamBit, show j / 8 = (j - 8) / 8 + 1 by omega, List.getElem?_cons_succ,
    show j % 8 = (j - 8) % 8 by omega]

/-- With bytes enough, stream bit `j` of the packed bytes is bit `j` of the list, and 0 in the padding. -/
theorem streamBit_packBits {k : Nat} {bits : List Bool} (hk : bits.length ≤ k) (j : Nat) :
    streamBit (packBits k bits) j = bits[j]?.getD false := by
  induction k generalizing bits j with
  | zero =>
    rw [List.length_eq_zero_iff.mp (by omega : bits.length = 0)]
    rfl
  | succ k ih =>
    cases bits with
    | nil => rfl
    | cons b bits =>
      rw [packBits]
      obtain hlow | hhigh := Nat.lt_or_ge j 8
      · rw [streamBit_cons_low hlow, BitVec.getLsbD_ofNat, bitsValue_testBit, List.getElem?_take_of_lt hlow,
          decide_eq_true hlow, Bool.true_and]
      · have hrest : ((b :: bits).drop 8).length ≤ k := by
          rw [List.length_drop]; simp only [List.length_cons] at hk ⊢; omega
        rw [streamBit_cons_high hhigh, ih hrest, List.getElem?_drop, Nat.add_sub_cancel' hhigh]

theorem packBits_length {k : Nat} {bits : List Bool} (hk : bits.length ≤ k) :
    bits.length ≤ 8 * (packBits k bits).length := by
  induction k generalizing bits with
  | zero => omega
  | succ k ih =>
    cases bits with
    | nil => exact Nat.zero_le _
    | cons b bits =>
      have hrest : ((b :: bits).drop 8).length ≤ k := by
        rw [List.length_drop]; simp only [List.length_cons] at hk ⊢; omega
      have := ih hrest
      rw [List.length_drop] at this
      simp only [packBits, List.length_cons] at this ⊢
      omega

/-- The stream bits of a list of code words (R43). -/
def codesBits (codes : List (Width × Nat)) : List Bool := (codes.map fun c => codeBits c.1.bits c.2).flatten

theorem packCodes_eq (codes : List (Width × Nat)) :
    packCodes codes = packBits (codesBits codes).length (codesBits codes) := rfl

theorem codesBits_length (codes : List (Width × Nat)) :
    (codesBits codes).length = (codes.map fun c => c.1.bits).sum := by
  simp [codesBits, List.length_flatten, Function.comp_def, codeBits_length]

theorem codesBits_append_cons (before after : List (Width × Nat)) (w : Width) (code : Nat) :
    codesBits (before ++ (w, code) :: after) = codesBits before ++ (codeBits w.bits code ++ codesBits after) := by
  simp [codesBits]

/-- Settles O12: each bit of the list is a stream bit of the packed bytes, so the read at a code's offset has
the code's own bits. -/
theorem packedCodesReadBack : Obligations.PackedCodesReadBack := by
  intro before after w code c hcode hc hsrc hpos
  rw [packCodes_eq, codesBits_append_cons] at hsrc
  rw [← codesBits_length] at hpos
  have hhas : c.has w.bits := by
    have hlen := packBits_length (bits := codesBits before ++ (codeBits w.bits code ++ codesBits after)) le_rfl
    rw [← hsrc] at hlen
    simp only [List.length_append, codeBits_length] at hlen
    simp only [BitCursor.has, BitCursor.srcBits, hpos]
    omega
  obtain ⟨v, c', hread, hbits⟩ := readBits_has hc hhas
  have hvalue : v = code := by
    refine Nat.eq_of_testBit_eq fun i => ?_
    rw [hbits, hsrc, hpos, streamBit_packBits le_rfl]
    obtain hi | hi := Nat.lt_or_ge i w.bits
    · rw [List.getElem?_append_right (by omega), Nat.add_sub_cancel_left,
        List.getElem?_append_left (by rwa [codeBits_length]), codeBits_getElem? code hi]
      simp [hi]
    · have hhigh : code < 2 ^ i := lt_of_lt_of_le hcode (Nat.pow_le_pow_right (by decide) hi)
      simp [Nat.not_lt.mpr hi, Nat.testBit_lt_two_pow hhigh]
  rw [hread, hvalue]

end Sys2Proof.Machine
end

section
/-! PROOFS. Decoding and encoding of code words and command words. -/

namespace Sys2Proof

/-! ### Code words -/

/-- Settles O35: the tests of R45 exclude one another from length 258 on, where the two special codes are below
the length. -/
theorem classificationFollowsTheOpcodeMap : Obligations.ClassificationFollowsTheOpcodeMap := by
  intro code len hlen
  refine ⟨?_, classify_eof, classify_reset, classify_dict, ?_, ?_⟩
  · rw [classify_lit]; omega
  · rw [classify_kwkwk]; omega
  · rw [classify_corrupt]; omega

/-- The row of R46 that a code-word instruction belongs to: its format, its class and its code value. -/
structure CodeRow (i : Instr) (w : Width) (k : CodeClass) (code : Nat) : Prop where
  encode_eq : encode i = .code w code
  fits : code < 2 ^ w.bits
  codeInstr_eq : ∀ len, classify code len = k → codeInstr w code len = i
  class_iff : ∀ len, 258 ≤ len → (i.wf = true ∧ i.selectedAt len = true ↔ classify code len = k)
  exec_eq : ∀ s, Machine.exec i s = Machine.runClass w k code s

/-- The rows, one for each constructor that is a code word. -/
theorem exists_codeRow {i : Instr} {w : Width} {code : Nat} (h : encode i = .code w code) :
    ∃ k, CodeRow i w k code := by
  cases i with
  | lit9 c | lit10 c | lit11 c | lit12 c =>
    cases h
    have hc := c.isLt
    refine ⟨.lit, rfl, by simp only [Width.bits]; omega, fun len hk => ?_, fun len hlen => ?_, fun _ => rfl⟩
    · simp [codeInstr, hk]
    · simp only [Instr.wf, Instr.selectedAt, classify_lit, true_and, true_iff]; omega
  | eof9 | eof10 | eof11 | eof12 =>
    cases h
    refine ⟨.eof, rfl, by simp [Width.bits], fun len hk => ?_, fun len _ => ?_, fun _ => rfl⟩
    · simp [codeInstr, hk]
    · simp [Instr.wf, Instr.selectedAt, classify_eof]
  | reset9 | reset10 | reset11 | reset12 =>
    cases h
    refine ⟨.reset, rfl, by simp [Width.bits], fun len hk => ?_, fun len _ => ?_, fun _ => rfl⟩
    · simp [codeInstr, hk]
    · simp [Instr.wf, Instr.selectedAt, classify_reset]
  | dict9 c | dict10 c | dict11 c | dict12 c =>
    cases h
    refine ⟨.dict, rfl, c.isLt, fun len hk => ?_, fun len _ => ?_, fun _ => rfl⟩
    · simp [codeInstr, hk]
    · simp [Instr.wf, Instr.selectedAt, classify_dict]
  | kwkwk9 c | kwkwk10 c | kwkwk11 c | kwkwk12 c =>
    cases h
    refine ⟨.kwkwk, rfl, c.isLt, fun len hk => ?_, fun len hlen => ?_, fun _ => rfl⟩
    · simp [codeInstr, hk]
    · simp only [Instr.wf, Instr.selectedAt, classify_kwkwk, Config.firstDynamic, decide_eq_true_eq]; omega
  | corrupt9 c | corrupt10 c | corrupt11 c | corrupt12 c =>
    cases h
    refine ⟨.corrupt, rfl, c.isLt, fun len hk => ?_, fun len hlen => ?_, fun _ => rfl⟩
    · simp [codeInstr, hk]
    · simp only [Instr.wf, Instr.selectedAt, classify_corrupt, Config.firstDynamic, decide_eq_true_eq]; omega
  | init _ | step | sync | readBits _ => cases h

theorem CodeRow.decode_eq {i : Instr} {w : Width} {k : CodeClass} {code len : Nat} (h : CodeRow i w k code)
    (hk : classify code len = k) : decode (.code w code) len = .ok i := by
  rw [decode, if_pos h.fits, h.codeInstr_eq len hk]

/-- The instruction of a code value that its format holds encodes to that code value (R46). -/
theorem encode_codeInstr {w : Width} {code len : Nat} (hfit : code < 2 ^ w.bits) :
    encode (codeInstr w code len) = .code w code := by
  cases hk : classify code len with
  | eof =>
    obtain rfl := classify_eof.mp hk
    cases w <;> simp [codeInstr, hk, encode]
  | reset =>
    obtain rfl := classify_reset.mp hk
    cases w <;> simp [codeInstr, hk, encode]
  | lit =>
    obtain ⟨-, hlit⟩ := classify_lit.mp hk
    cases w <;> simp [codeInstr, hk, encode, Nat.mod_eq_of_lt hlit]
  | kwkwk | dict | corrupt =>
    cases w <;> simp [codeInstr, hk, encode] <;> exact hfit

/-- The instruction of a code value is well formed and its row is selected, at the length it is read at. -/
theorem codeInstr_selected {w : Width} {code len : Nat} (hlen : 258 ≤ len) (hfit : code < 2 ^ w.bits) :
    (codeInstr w code len).wf = true ∧ (codeInstr w code len).selectedAt len = true := by
  cases hk : classify code len with
  | eof | reset | lit => cases w <;> simp [codeInstr, hk, Instr.wf, Instr.selectedAt]
  | dict =>
    obtain ⟨hge, hlt⟩ := classify_dict.mp hk
    cases w <;> simp only [Width.bits, Nat.reducePow] at hfit <;>
      simp [codeInstr, hk, Instr.wf, Instr.selectedAt, Nat.mod_eq_of_lt hfit, hge, hlt]
  | kwkwk =>
    obtain ⟨rfl, -, -⟩ := classify_kwkwk.mp hk
    cases w <;> simp only [Width.bits, Nat.reducePow] at hfit <;>
      simp [codeInstr, hk, Instr.wf, Instr.selectedAt, Nat.mod_eq_of_lt hfit, hlen]
  | corrupt =>
    obtain ⟨hgt, -, -⟩ := classify_corrupt.mp hk
    have hge : 258 < code := by omega
    cases w <;> simp only [Width.bits, Nat.reducePow] at hfit <;>
      simp [codeInstr, hk, Instr.wf, Instr.selectedAt, Nat.mod_eq_of_lt hfit, hge, hgt]

/-- Settles O37: the code value decodes to its class's row, which keeps the code value. -/
theorem encodeOfDecodedCodeWord : Obligations.EncodeOfDecodedCodeWord := by
  intro w code len hlen hfit
  obtain ⟨hwf, hselected⟩ := codeInstr_selected hlen hfit
  exact ⟨codeInstr w code len, by rw [decode, if_pos hfit], hwf, hselected, encode_codeInstr hfit⟩

/-! ### Command words -/

theorem decodeCommand_readBits_word {n : Nat} (h1 : 1 ≤ n) (h32 : n ≤ 32) (arg : Bytes) :
    decodeCommand (BitVec.ofNat 8 (0xC0 + (n - 1))) arg = .ok (.readBits n) := by
  interval_cases n <;> rfl

/-- READ_BITS's count stands beside the command's bits, not over them (R51). -/
theorem readBits_word_eq {n : Nat} (h32 : n ≤ 32) :
    0xC0#8 ||| BitVec.ofNat 8 (n - 1) = BitVec.ofNat 8 (0xC0 + (n - 1)) := by
  have hor : 0xC0 + (n - 1) = 0xC0 ||| (n - 1) := Nat.shiftLeft_add_eq_or_of_lt (i := 5) (by omega) 6
  rw [← BitVec.ofNat_or, ← hor]

/-- Settles O36: a command word's bits are read back one field after another; a code word is of the class of its
row wherever its row is selected. -/
theorem decodeOfEncodeIsTheInstruction : Obligations.DecodeOfEncodeIsTheInstruction := by
  intro i len hwf hlen hselected
  obtain ⟨source, rfl⟩ | rfl | rfl | ⟨n, rfl⟩ | ⟨w, -, code, hcode, -⟩ := Machine.exec_shape i
  · rfl
  · rfl
  · rfl
  · simp only [Instr.wf, Config.readMin, Config.readMax, Bool.and_eq_true, decide_eq_true_eq] at hwf
    obtain ⟨h1, h32⟩ := hwf
    rw [encode, readBits_word_eq h32]
    exact decodeCommand_readBits_word h1 h32 []
  · obtain ⟨k, hrow⟩ := exists_codeRow hcode
    rw [hcode]
    exact hrow.decode_eq ((hrow.class_iff len hlen).mp ⟨hwf, hselected⟩)

theorem toNat_command_field (word : BitVec 8) : (word.extractLsb' 6 2).toNat = word.toNat / 64 := by
  have := word.isLt
  rw [BitVec.extractLsb'_toNat, Nat.shiftRight_eq_div_pow]
  omega

theorem toNat_low_field (word : BitVec 8) : (word.extractLsb' 0 6).toNat = word.toNat % 64 := by
  rw [BitVec.extractLsb'_toNat, Nat.shiftRight_zero]

theorem low_field_eq_zero {word : BitVec 8} : word.extractLsb' 0 6 = 0 ↔ word.toNat % 64 = 0 := by
  rw [← toNat_low_field, ← BitVec.toNat_inj]
  rfl

theorem getLsbD_five (word : BitVec 8) : word.getLsbD 5 = decide (word.toNat / 32 % 2 = 1) := by
  rw [← BitVec.testBit_toNat, Nat.testBit_eq_decide_div_mod_eq]

/-- A word below 0xC0 with a bit of [5:0] set is no command (R51). -/
theorem decodeCommand_low_bits {word : BitVec 8} (arg : Bytes) (hop : word.toNat < 0xC0)
    (hlow : word.toNat % 64 ≠ 0) : decodeCommand word arg = .error (.mustBeZero word) := by
  have hfield : ¬word.extractLsb' 0 6 = 0 := mt low_field_eq_zero.mp hlow
  have hcommand := toNat_command_field word
  simp only [decodeCommand, if_neg hfield]
  split_ifs with h0 h1 h2 hbit
  · rfl
  · rfl
  · rfl
  · rfl
  · exfalso; bv_omega

/-- A word from 0xE0 on is no command (R51). -/
theorem decodeCommand_bit_five {word : BitVec 8} (arg : Bytes) (hop : 0xE0 ≤ word.toNat) :
    decodeCommand word arg = .error (.mustBeZero word) := by
  have hcommand := toNat_command_field word
  have hbit : word.getLsbD 5 = true := by
    have := word.isLt
    rw [getLsbD_five]
    exact decide_eq_true (by omega)
  simp only [decodeCommand]
  rw [if_neg (by bv_omega), if_neg (by bv_omega), if_neg (by bv_omega), if_pos hbit]

/-- Settles O13: the four commands by computation, the words that are none by their fields. -/
theorem commandWordTable : Obligations.CommandWordTable := by
  intro arg
  exact ⟨rfl, rfl, rfl, fun n h1 h32 => decodeCommand_readBits_word h1 h32 arg,
    fun word hop hlow => decodeCommand_low_bits arg hop hlow, fun word hop => decodeCommand_bit_five arg hop⟩

/-- A word with its low bits 0 is its command's number times 64. -/
theorem word_eq_of_fields {word : BitVec 8} {op : Nat} (hop : word.extractLsb' 6 2 = BitVec.ofNat 2 op)
    (hlow : word.extractLsb' 0 6 = 0) : BitVec.ofNat 8 (64 * op) = word := by
  have hcommand := toNat_command_field word
  have hzero := low_field_eq_zero.mp hlow
  rw [hop, BitVec.toNat_ofNat] at hcommand
  exact BitVec.eq_of_toNat_eq (by rw [BitVec.toNat_ofNat]; omega)

/-- A READ_BITS word is its command's bits and its count less 1. -/
theorem readBits_word_of_fields {word : BitVec 8} (hop : word.extractLsb' 6 2 = 3)
    (hbit : word.getLsbD 5 = false) : BitVec.ofNat 8 (0xC0 + (word.extractLsb' 0 5).toNat) = word := by
  have hcommand := toNat_command_field word
  rw [getLsbD_five, decide_eq_false_iff_not] at hbit
  rw [BitVec.extractLsb'_toNat, Nat.shiftRight_zero]
  exact BitVec.eq_of_toNat_eq (by rw [BitVec.toNat_ofNat]; bv_omega)

/-- Settles O14: the fields of a word that decodes leave one word for each command and count. -/
theorem commandWordsEncodeBack : Obligations.CommandWordsEncodeBack := by
  intro word arg i h
  obtain ⟨hop, hlow, rfl⟩ | ⟨hop, hlow, rfl⟩ | ⟨hop, hlow, rfl⟩ | ⟨hop, hbit, rfl⟩ := decodeCommand_cases h
  · exact ⟨rfl, by rw [← word_eq_of_fields (op := 0) hop hlow]; rfl, fun _ h => by cases h; rfl⟩
  · exact ⟨rfl, by rw [← word_eq_of_fields (op := 1) hop hlow]; rfl, fun _ h => by cases h⟩
  · exact ⟨rfl, by rw [← word_eq_of_fields (op := 2) hop hlow]; rfl, fun _ h => by cases h⟩
  · obtain ⟨h1, h32⟩ := decodeCommand_readBits_count h
    refine ⟨by simpa [Instr.wf] using h32, ?_, fun _ h => by cases h⟩
    rw [encode, readBits_word_eq h32, Nat.add_sub_cancel, readBits_word_of_fields hop hbit]

/-- Settles O39: each word is closed, so decoding it is a computation. -/
theorem spelledOutWordsDecode : Obligations.SpelledOutWordsDecode := by
  unfold Obligations.SpelledOutWordsDecode
  decide

end Sys2Proof
end

section
/-! PROOFS. What each command and each code word answers. -/

namespace Sys2Proof.Machine

/-! ### The commands and the step -/

/-- Settles O2: INIT's state over a newly built decoder has the fields of the reset state. -/
theorem resetIsInitOfTheEmptySource : Obligations.ResetIsInitOfTheEmptySource := by
  exact exec_init [] (State.preInit .decoder)

/-- Settles O15: the step's match on the commands issued, and on what the oldest decodes to. -/
theorem stepRunsTheIssuedCommand : Obligations.StepRunsTheIssuedCommand := by
  intro s
  refine ⟨fun hpending => ?_, fun c cs i hpending hdecode => ?_, fun c cs e hpending hdecode => ?_⟩
  · simp only [step, hpending]
  · simp only [step, hpending, runCommand, hdecode]; rfl
  · simp only [step, hpending, runCommand, hdecode]; rfl

/-- Settles O17: the three commands are guarded alike, before they look at anything else. -/
theorem illegalCommandsAreRefused : Obligations.IllegalCommandsAreRefused := by
  intro s
  exact ⟨fun h => legalIn_illegal h, fun h => ⟨legalIn_illegal h, fun _ => legalIn_illegal h⟩⟩

theorem exec_sync_legal {s : State} (hinit : s.inited = true) (hmode : s.cfgMode = .readerOnly) :
    exec .sync s = .next ((s.withReader (syncCursor s.reader)).emit .done) := legalIn_legal hinit hmode

/-- A legal READ_BITS is its read. -/
theorem execReadBits_legal {n : Nat} {s : State} (hinit : s.inited = true) (hmode : s.cfgMode = .readerOnly)
    (h1 : 1 ≤ n) (h32 : n ≤ 32) :
    (∀ v c, readBits n s.reader = (.value v, c) →
      exec (.readBits n) s = .next ((s.withReader c).emit (.value v))) ∧
    (∀ r o c, readBits n s.reader = (.endOfStream r o, c) →
      exec (.readBits n) s = .next ((s.withReader c).emit (.error (.endOfStream r o)))) := by
  have hrange : Config.readMin ≤ n ∧ n ≤ Config.readMax := ⟨h1, h32⟩
  change (∀ v c, _ → execReadBits n s = _) ∧ (∀ r o c, _ → execReadBits n s = _)
  rw [execReadBits, legalIn_legal hinit hmode, if_pos hrange]
  exact ⟨fun v c hread => by rw [hread], fun r o c hread => by rw [hread]⟩

/-- Settles O20: SYNC leaves the bytes taken, which the bit position needed. -/
theorem syncDiscardsThePartialByte : Obligations.SyncDiscardsThePartialByte := by
  intro s hinit hmode
  refine ⟨exec_sync_legal hinit hmode, fun hc => ⟨?_, fun hnone => ?_⟩⟩
  · rw [← lookaheadIsAtMostOneByte s.reader hc]; rfl
  · have hvalue : s.reader.rvalue = 0#8 := by
      have hlt := hc.value_lt
      rw [hnone] at hlt
      exact BitVec.eq_of_toNat_eq (Nat.lt_one_iff.mp hlt)
    rw [syncCursor, ← hvalue, ← hnone]

/-- Settles O21: the command's outcome is its read's value. -/
theorem readBitsCommandAnswersItsValue : Obligations.ReadBitsCommandAnswersItsValue := by
  intro n s hinit hmode h1 h32 hc hhas
  obtain ⟨c, hread, hsrc, hpos, hinv⟩ := readBits_eq_value hc hhas
  obtain ⟨hvalue, -⟩ := execReadBits_legal hinit hmode h1 h32
  exact ⟨c, hsrc, hpos, hinv, hvalue _ c hread⟩

/-- Settles O22: the command's outcome is its read's failure, and `err` is not written. -/
theorem readBitsCommandPastTheEnd : Obligations.ReadBitsCommandPastTheEnd := by
  intro n s hinit hmode h1 h32 hc hhas
  obtain ⟨-, hfail⟩ := execReadBits_legal hinit hmode h1 h32
  exact hfail _ _ _ (readBits_eq_endOfStream hc hhas)

/-- Settles O8: the cursor at the end is legal and has no bits, so a read fails with none and leaves it there. -/
theorem readerStaysAtTheEnd : Obligations.ReaderStaysAtTheEnd := by
  intro n s hinit hmode h1 h32 hend hcount hvalue
  have hreader : s.reader.atEnd = s.reader := by rw [BitCursor.atEnd, ← hvalue, ← hend, ← hcount]
  have hinv : CursorInv s.reader := hreader ▸ atEnd_inv s.reader
  have hleft : s.reader.srcBits - s.reader.bitpos = 0 := by
    simp only [BitCursor.srcBits, BitCursor.bitpos]; omega
  have hhas : ¬s.reader.has n := by
    simp only [BitCursor.has, BitCursor.srcBits, BitCursor.bitpos]; omega
  have hread := readBitsCommandPastTheEnd n s hinit hmode h1 h32 hinv hhas
  rw [hleft] at hread
  constructor
  · refine hread.trans ?_
    rw [show (⟨s.reader.srcBytes, s.reader.srcBytes.length, 0, 0#8⟩ : BitCursor) = s.reader from hreader]
  · rw [exec_sync_legal hinit hmode, syncCursor, ← hvalue, ← hcount]; rfl

/-! ### Code words -/

/-- Settles O4: the placeholders end the initial dictionary, and the read tests for their codes. -/
theorem controlPlaceholdersNeverRead : Obligations.ControlPlaceholdersNeverRead := by
  refine ⟨by simp [initialDict], ?_, ?_, fun s => ⟨by simp [State.dictRead], by simp [State.dictRead]⟩⟩
  · simp [initialDict]
  · simp [initialDict]

theorem initialDict_length : initialDict.length = 258 := by simp [initialDict]

/-- A literal's entry, in every dictionary that still begins as initialised (R18). -/
theorem literal_entry {s : State} (hhead : s.dict.take 258 = initialDict) (i : BitVec 8) :
    s.dict[i.toNat]? = some [rotr8 i 3] := by
  have hi := i.isLt
  rw [← initialDict_byte i, ← hhead, List.getElem?_take_of_lt (by omega)]

section
variable {s : State} {w : Width} (hs : s.stepping = true) (hw : s.width = w)
include hs hw

theorem runClass_eof : runClass w .eof Config.eofCode s = .next s.afterEof :=
  runClass_selected hs hw (classify_eof.mpr rfl)

theorem runClass_reset : runClass w .reset Config.resetCode s = .next s.afterReset :=
  runClass_selected hs hw (classify_reset.mpr rfl)

theorem runClass_lit (hhead : s.dict.take 258 = initialDict) (i : BitVec 8) :
    runClass w .lit i.toNat s = .next (s.afterData [rotr8 i 3]) := by
  have hi := i.isLt
  have hentry := literal_entry hhead i
  obtain ⟨hlt, -⟩ := List.getElem?_eq_some_iff.mp hentry
  rw [runClass_selected hs hw (classify_lit.mpr ⟨hlt, by omega⟩)]
  exact entryArm_eq (by omega) (by omega) hentry

theorem runClass_dict {code : Nat} {cur : Bytes} (hcode : 258 ≤ code) (hentry : s.dict[code]? = some cur) :
    runClass w .dict code s = .next (s.afterData cur) := by
  obtain ⟨hlt, -⟩ := List.getElem?_eq_some_iff.mp hentry
  rw [runClass_selected hs hw (classify_dict.mpr ⟨hcode, hlt⟩)]
  exact entryArm_eq (by omega) (by omega) hentry

theorem runClass_kwkwk {code : Nat} (hlen : 258 ≤ s.dict.length) (hcode : code = s.dict.length) :
    runClass w .kwkwk code s = .next (s.afterData (s.prev ++ s.prev.take 1)) := by
  rw [runClass_selected hs hw (classify_kwkwk.mpr ⟨hcode, by omega, by omega⟩), classArm, kwkwkArm_eq]

theorem runClass_corrupt {code : Nat} (hlen : 258 ≤ s.dict.length) (hcode : s.dict.length < code) :
    runClass w .corrupt code s = .next (s.afterFailure (.corruptStream code s.dict.length w.bits)) := by
  rw [runClass_selected hs hw (classify_corrupt.mpr ⟨hcode, by omega, by omega⟩), classArm, corruptArm_eq, hw]

end

/-- Settles O27: the four rows are one, at the width that the register names. -/
theorem litYieldsItsLiteral : Obligations.LitYieldsItsLiteral := by
  intro s i hs hhead
  exact ⟨fun hw => runClass_lit hs hw hhead i, fun hw => runClass_lit hs hw hhead i,
    fun hw => runClass_lit hs hw hhead i, fun hw => runClass_lit hs hw hhead i⟩

/-- Settles O28: the four rows are one, at the width that the register names. -/
theorem eofEndsTheSequence : Obligations.EofEndsTheSequence := by
  intro s hs
  exact ⟨runClass_eof hs, runClass_eof hs, runClass_eof hs, runClass_eof hs⟩

/-- Settles O29: the four rows are one, at the width that the register names. -/
theorem resetReinitialisesTheDecoder : Obligations.ResetReinitialisesTheDecoder := by
  intro s hs
  exact ⟨runClass_reset hs, runClass_reset hs, runClass_reset hs, runClass_reset hs⟩

/-- Settles O30: the four rows are one, at the width that the register names. -/
theorem dictYieldsItsEntry : Obligations.DictYieldsItsEntry := by
  intro s cur hs
  exact ⟨fun _ hw => runClass_dict hs hw, fun _ hw => runClass_dict hs hw,
    fun _ hw => runClass_dict hs hw, fun _ hw => runClass_dict hs hw⟩

/-- Where `prev` is not empty and the dictionary not full, a data step appends one entry (R70). -/
theorem afterData_dict_grown {s : State} {cur : Bytes} (hprev : s.prev ≠ []) (hroom : s.dict.length < 4095) :
    (s.afterData cur).dict = s.dict ++ [s.prev ++ cur.take 1] := if_pos ⟨hprev, hroom⟩

/-- Elsewhere it leaves the dictionary (R70). -/
theorem afterData_dict_kept {s : State} {cur : Bytes} (h : s.prev = [] ∨ 4095 ≤ s.dict.length) :
    (s.afterData cur).dict = s.dict := if_neg (by rw [not_and_or, not_not, not_lt]; exact h)

/-- What KWKWK yields begins as `prev` does. -/
theorem kwkwk_take_one (prev : Bytes) : (prev ++ prev.take 1).take 1 = prev.take 1 := by
  cases prev <;> simp

/-- Settles O31: `prev` and its own first byte begin with that byte, so the entry appended is what is yielded. -/
theorem kwkwkCopiesThePreviousSequence : Obligations.KwkwkCopiesThePreviousSequence := by
  intro s hs hlen
  refine ⟨fun hprev hroom => ?_, afterData_dict_kept, fun _ hw => runClass_kwkwk hs hw hlen,
    fun _ hw => runClass_kwkwk hs hw hlen, fun _ hw => runClass_kwkwk hs hw hlen,
    fun _ hw => runClass_kwkwk hs hw hlen⟩
  rw [afterData_dict_grown hprev hroom, kwkwk_take_one]
  exact List.getElem?_concat_length

/-- Settles O32: the four rows are one, at the width that the register names. -/
theorem corruptTakesTheFailure : Obligations.CorruptTakesTheFailure := by
  intro s hs hlen
  exact ⟨fun _ hw => runClass_corrupt hs hw hlen, fun _ hw => runClass_corrupt hs hw hlen,
    fun _ hw => runClass_corrupt hs hw hlen, fun _ hw => runClass_corrupt hs hw hlen⟩

/-- Settles O33: where R45 gives the code its row's class, the code decodes to the row's instruction. -/
theorem unselectedCodeWordStops : Obligations.UnselectedCodeWordStops := by
  intro i w code s hcode hunselected
  obtain ⟨k, hrow⟩ := exists_codeRow hcode
  rw [hrow.exec_eq]
  exact runClass_unselected fun ⟨hs, hw, hk⟩ => hunselected ⟨hs, hw, hrow.codeInstr_eq _ hk⟩

/-! ### STEP -/

/-- The state after a code value is read, by the tests of R62 in their order. -/
def State.afterCode (s : State) (code : Nat) : State :=
  if code = 256 then s.afterEof
  else if code = 257 then s.afterReset
  else if code = s.dict.length then s.afterData (s.prev ++ s.prev.take 1)
  else if code < s.dict.length then s.afterData (s.dict[code]?.getD [])
  else s.afterFailure (.corruptStream code s.dict.length s.width.bits)

/-- The arm that R45 selects is the branch that R62 takes. -/
theorem classArm_classify (s : State) (code : Nat) :
    classArm (classify code s.dict.length) code s = .next (s.afterCode code) := by
  obtain ⟨t, harm⟩ := classArm_total (code := code) (s := s)
  rw [harm]
  obtain ⟨rfl, rfl⟩ | ⟨rfl, rfl⟩ | ⟨hlen, heof, hreset, rfl⟩ | ⟨hlt, heof, hreset, cur, hentry, rfl⟩ |
    ⟨hgt, heof, hreset, rfl⟩ := classArm_cases rfl harm
  · rfl
  · rfl
  · rw [State.afterCode, if_neg heof, if_neg hreset, if_pos hlen]
  · rw [State.afterCode, if_neg heof, if_neg hreset, if_neg hlt.ne, if_pos hlt, hentry, Option.getD_some]
  · rw [State.afterCode, if_neg heof, if_neg hreset, if_neg hgt.ne', if_neg hgt.le.not_gt]

/-- Settles O25: the failing read, then failure entry. -/
theorem stepTakesEndOfStream : Obligations.StepTakesEndOfStream := by
  intro s hs hc hhas
  rw [execStep_live hs, stepLive_eos (readBits_eq_endOfStream hc hhas)]
  rfl

/-- Settles O24: the value read fits its format, so it decodes, and STEP's code word runs as the instruction. -/
theorem stepRunsTheCodeWordItReads : Obligations.StepRunsTheCodeWordItReads := by
  intro s hs hc hhas
  obtain ⟨c, hread, hsrc, hpos, hinv⟩ := readBits_eq_value hc hhas
  refine ⟨c, hsrc, hpos, hinv, by rw [decode, if_pos (streamSum_lt _ _ _)], ?_⟩
  rw [execStep_live hs, stepLive, hread]
  exact exec_codeInstr.symm

/-- Settles O26: the cursor is what the read leaves, and each phase and read has its equation. -/
theorem stepFollowsItsPseudocode : Obligations.StepFollowsItsPseudocode := by
  intro s hinit hmode hc
  have hstepping (hlive : s.phase.live = true) : s.stepping = true := stepping_iff.mpr ⟨hinit, hmode, hlive⟩
  by_cases hhas : s.reader.has s.width.bits
  · obtain ⟨c, hread, hsrc, hpos, hinv⟩ := readBits_eq_value hc hhas
    refine ⟨c, hsrc, fun _ => ⟨hpos, hinv⟩, fun h => absurd hhas h, exec_step_exhausted hinit hmode,
      exec_step_failed hinit hmode, fun _ h => absurd hhas h, fun hlive _ => ?_⟩
    rw [execStep_live (hstepping hlive), stepLive_value (hstepping hlive) hread]
    exact classArm_classify (s.withReader c) _
  · refine ⟨s.reader.atEnd, rfl, fun h => absurd h hhas, fun _ => ⟨rfl, rfl, rfl⟩,
      exec_step_exhausted hinit hmode, exec_step_failed hinit hmode, fun hlive _ => ?_, fun _ h => absurd h hhas⟩
    exact stepTakesEndOfStream s (hstepping hlive) hc hhas

/-! ### Every instruction stops in no fault, and every step answers -/

theorem exec_step_answers (s : State) : ∃ t, exec .step s = .next t := by
  by_cases hl : s.inited = true ∧ s.cfgMode = .decoder
  · obtain ⟨hinit, hmode⟩ := hl
    cases hphase : s.phase with
    | exhausted => exact ⟨_, exec_step_exhausted hinit hmode hphase⟩
    | failed => exact ⟨_, exec_step_failed hinit hmode hphase⟩
    | justReset | active =>
      have hs : s.stepping = true := stepping_iff.mpr ⟨hinit, hmode, by rw [hphase]; rfl⟩
      rw [execStep_live hs]
      rcases hread : readBits s.width.bits s.reader with ⟨code | ⟨r, o⟩, c⟩
      · exact ⟨_, (stepLive_value hs hread).trans (classArm_classify (s.withReader c) code)⟩
      · exact ⟨_, stepLive_eos hread⟩
  · exact ⟨_, legalIn_illegal hl⟩

theorem exec_sync_answers (s : State) : ∃ t, exec .sync s = .next t := by
  by_cases hl : s.inited = true ∧ s.cfgMode = .readerOnly
  · obtain ⟨hinit, hmode⟩ := hl
    exact ⟨_, exec_sync_legal hinit hmode⟩
  · exact ⟨_, legalIn_illegal hl⟩

theorem exec_readBits_answers (n : Nat) (s : State) : ∃ t, exec (.readBits n) s = .next t := by
  by_cases hl : s.inited = true ∧ s.cfgMode = .readerOnly
  · obtain ⟨hinit, hmode⟩ := hl
    by_cases hn : 1 ≤ n ∧ n ≤ 32
    · obtain ⟨h1, h32⟩ := hn
      obtain ⟨hvalue, hfail⟩ := execReadBits_legal hinit hmode h1 h32
      rcases hread : readBits n s.reader with ⟨v | ⟨r, o⟩, c⟩
      · exact ⟨_, hvalue v c hread⟩
      · exact ⟨_, hfail r o c hread⟩
    · exact ⟨_, exec_readBits_out_of_range (by omega) s⟩
  · exact ⟨_, legalIn_illegal hl⟩

/-- Settles O16: a command word decodes to one of the four commands, each of which answers. -/
theorem everyStepAnswers : Obligations.EveryStepAnswers := by
  intro s
  obtain ⟨hnone, hcommand, hword⟩ := stepRunsTheIssuedCommand s
  rcases hpending : s.pending with _ | ⟨c, cs⟩
  · exact ⟨s, hnone hpending⟩
  · rcases hdecode : decodeCommand c.word c.arg with e | i
    · exact ⟨_, hword c cs e hpending hdecode⟩
    · rw [hcommand c cs i hpending hdecode]
      obtain ⟨-, -, rfl⟩ | ⟨-, -, rfl⟩ | ⟨-, -, rfl⟩ | ⟨-, -, rfl⟩ := decodeCommand_cases hdecode
      · exact ⟨_, exec_init _ _⟩
      · exact exec_step_answers _
      · exact exec_sync_answers _
      · exact exec_readBits_answers _ _

/-- Settles O34: a command answers, and a code word answers where it is selected and is refused elsewhere. -/
theorem noInstructionFaults : Obligations.NoInstructionFaults := by
  have hanswers {r : Result} (hr : ∃ t, r = .next t) (f : Fault) : r ≠ .fault f := by
    obtain ⟨t, rfl⟩ := hr
    simp
  intro i s f
  obtain ⟨source, rfl⟩ | rfl | rfl | ⟨n, rfl⟩ | ⟨w, k, code, -, hrun⟩ := exec_shape i
  · exact hanswers ⟨_, exec_init source s⟩ f
  · exact hanswers (exec_step_answers s) f
  · exact hanswers (exec_sync_answers s) f
  · exact hanswers (exec_readBits_answers n s) f
  · rw [hrun]
    by_cases hselected : s.stepping = true ∧ s.width = w ∧ classify code s.dict.length = k
    · obtain ⟨hs, hw, rfl⟩ := hselected
      exact hanswers ⟨_, (runClass_selected hs hw rfl).trans (classArm_classify s code)⟩ f
    · rw [runClass_unselected hselected]
      simp

end Sys2Proof.Machine
end

section
/-! PROOFS. What an instruction can do to the state, and the invariants that every step keeps. -/

namespace Sys2Proof.Machine

/-! ### What an instruction can do -/

/-- What a data code can yield: a readable entry, or `prev` and its own first byte (R66, R67, R68). -/
inductive Yields (dict : List Bytes) (prev : Bytes) : Bytes → Prop where
  | entry {code : Nat} {cur : Bytes} (heof : code ≠ 256) (hreset : code ≠ 257)
      (hentry : dict[code]? = some cur) : Yields dict prev cur
  | kwkwk : Yields dict prev (prev ++ prev.take 1)

/-- What a live STEP can do after its read, in the order of R62 with the failures last (R87). -/
inductive CodeEffect (s : State) : State → Prop where
  | eof : CodeEffect s s.afterEof
  | reset : CodeEffect s s.afterReset
  | data {cur : Bytes} (hcur : Yields s.dict s.prev cur) : CodeEffect s (s.afterData cur)
  | failure {e : ErrRecord} (he : e ≠ .none) : CodeEffect s (s.afterFailure e)

theorem classArm_codeEffect {k : CodeClass} {code : Nat} {s t : State}
    (hk : classify code s.dict.length = k) (h : classArm k code s = .next t) : CodeEffect s t := by
  obtain ⟨-, rfl⟩ | ⟨-, rfl⟩ | ⟨-, -, -, rfl⟩ | ⟨-, heof, hreset, cur, hentry, rfl⟩ | ⟨-, -, -, rfl⟩ :=
    classArm_cases hk h
  · exact .eof
  · exact .reset
  · exact .data .kwkwk
  · exact .data (.entry heof hreset hentry)
  · exact .failure (by simp)

/-- What an instruction can do to the reader short of INIT. -/
inductive CursorMove (c : BitCursor) : BitCursor → Prop where
  | kept : CursorMove c c
  | synced : CursorMove c (syncCursor c)
  | read (n : Nat) : CursorMove c (readBits n c).2

theorem CursorMove.of_readBits {n : Nat} {c c' : BitCursor} {r : ReadResult} (h : readBits n c = (r, c')) :
    CursorMove c c' := by
  have hmove := CursorMove.read (c := c) n
  rwa [h] at hmove

theorem CursorMove.inv {c c' : BitCursor} (h : CursorMove c c') (hc : CursorInv c) : CursorInv c' := by
  cases h with
  | kept => exact hc
  | synced => exact syncCursor_inv hc
  | read n => exact readBits_inv hc n

/-- All that an instruction can do where it answers a next state. -/
inductive Effect (s : State) : Instr → State → Prop where
  | refused {i : Instr} : Effect s i s.refuse
  | began (source : Bytes) : Effect s (.init source) (s.afterInit source)
  | answered {i : Instr} {c : BitCursor} {o : CmdOutcome} (hc : CursorMove s.reader c) :
      Effect s i ((s.withReader c).emit o)
  | ranCode {i : Instr} {c : BitCursor} {t : State} (hs : s.stepping = true) (hc : CursorMove s.reader c)
      (hcode : CodeEffect (s.withReader c) t) : Effect s i t

/-- What a live STEP does: it moves the reader and then has the effect of a code word. -/
theorem exec_step_codeEffect {s t : State} (hs : s.stepping = true) (h : exec .step s = .next t) :
    ∃ c, CursorMove s.reader c ∧ CodeEffect (s.withReader c) t := by
  rw [execStep_live hs] at h
  rcases hread : readBits s.width.bits s.reader with ⟨code | ⟨r, o⟩, c⟩
  · rw [stepLive_value hs hread] at h
    exact ⟨c, .of_readBits hread, classArm_codeEffect (s := s.withReader c) rfl h⟩
  · rw [stepLive_eos hread] at h
    cases h
    exact ⟨c, .of_readBits hread, .failure (by simp)⟩

theorem exec_effect {i : Instr} {s t : State} (h : exec i s = .next t) : Effect s i t := by
  obtain ⟨source, rfl⟩ | rfl | rfl | ⟨n, rfl⟩ | ⟨w, k, code, -, hrun⟩ := exec_shape i
  · cases h
    exact .began source
  · by_cases hs : s.stepping = true
    · obtain ⟨c, hc, hcode⟩ := exec_step_codeEffect hs h
      exact .ranCode hs hc hcode
    · obtain ⟨-, rfl⟩ | ⟨-, rfl⟩ | ⟨-, rfl⟩ | ⟨hlive, -⟩ | ⟨hlive, -⟩ := exec_step_cases h
      · exact .refused
      · exact .answered (c := s.reader) .kept
      · exact .answered (c := s.reader) .kept
      · exact absurd hlive hs
      · exact absurd hlive hs
  · obtain ⟨-, rfl⟩ | ⟨-, -, rfl⟩ := exec_sync_cases h
    · exact .refused
    · exact .answered .synced
  · obtain ⟨-, rfl⟩ | ⟨-, -, -, -, ⟨r, o, c, hread, rfl⟩ | ⟨v, c, hread, rfl⟩⟩ := exec_readBits_cases h
    · exact .refused
    · exact .answered (.of_readBits hread)
    · exact .answered (.of_readBits hread)
  · rw [hrun] at h
    obtain ⟨hs, -, hk, harm⟩ := runClass_next h
    exact .ranCode hs .kept (classArm_codeEffect (s := s.withReader s.reader) hk harm)

/-- A step does nothing, or what an instruction can do once its command is taken. -/
theorem step_effect {s t : State} (h : step s = .next t) :
    t = s ∨ ∃ cs i, Effect (s.withPending cs) i t := by
  obtain ⟨-, rfl⟩ | ⟨c, cs, -, -, rfl⟩ | ⟨c, cs, i, -, -, hexec⟩ := step_cases h
  · exact .inl rfl
  · exact .inr ⟨cs, .sync, .refused⟩
  · exact .inr ⟨cs, i, exec_effect hexec⟩

/-! ### The configuration, the marks and the error record -/

/-- The fields that no code word writes. -/
structure FrameKept (s t : State) : Prop where
  cfgMode : t.cfgMode = s.cfgMode
  inited : t.inited = s.inited
  refusalMark : t.refusalMark = s.refusalMark
  reader : t.reader = s.reader
  pending : t.pending = s.pending

theorem CodeEffect.frame {s t : State} (h : CodeEffect s t) : FrameKept s t := by
  cases h <;> exact ⟨rfl, rfl, rfl, rfl, rfl⟩

/-- Settles O19: INIT and the code words leave the mark, so only a refusal sets it. -/
theorem configurationAndMarkPersist : Obligations.ConfigurationAndMarkPersist := by
  intro i s t h
  cases exec_effect h with
  | refused => exact ⟨rfl, rfl, fun _ => rfl, id, fun _ => rfl⟩
  | began source => exact ⟨rfl, rfl, id, fun _ => rfl, fun hmark => absurd rfl hmark⟩
  | answered hc => exact ⟨rfl, rfl, id, id, fun hmark => absurd rfl hmark⟩
  | ranCode hs hc hcode =>
    obtain ⟨hmode, hinit, hmark, -, hpending⟩ := hcode.frame
    exact ⟨hmode, hpending, hmark.trans, hinit.trans, fun hne => absurd hmark hne⟩

/-- Settles O45: of the effects only INIT and a failure write the record, and a failure is that of a live phase. -/
theorem errorRecordWrittenOnlyAtFailure : Obligations.ErrorRecordWrittenOnlyAtFailure := by
  intro i s t h herr
  cases exec_effect h with
  | refused => exact absurd rfl herr
  | began source => exact .inr ⟨rfl, source, rfl⟩
  | answered hc => exact absurd rfl herr
  | ranCode hs hc hcode =>
    obtain ⟨-, -, hlive⟩ := stepping_iff.mp hs
    cases hcode with
    | eof | reset | data => exact absurd rfl herr
    | failure he => exact .inl ⟨rfl, he, hlive⟩

/-! ### The outcome of a STEP -/

/-- Settles O43: each effect of a code word has its outcome and its phase. -/
theorem phaseFollowsTheOutcome : Obligations.PhaseFollowsTheOutcome := by
  intro s t hinit hmode h
  refine ⟨fun hphase => ?_, fun hphase => ?_, fun hlive => ?_⟩
  · rw [exec_step_exhausted hinit hmode hphase] at h
    cases h
    exact hphase
  · rw [exec_step_failed hinit hmode hphase] at h
    cases h
    exact hphase
  · obtain ⟨c, -, hcode⟩ := exec_step_codeEffect (stepping_iff.mpr ⟨hinit, hmode, hlive⟩) h
    cases hcode with
    | eof => exact ⟨_, rfl, .inr (.inr (.inl ⟨rfl, rfl⟩))⟩
    | reset => exact ⟨_, rfl, .inr (.inl ⟨rfl, rfl⟩)⟩
    | @data cur hcur =>
      refine ⟨_, rfl, ?_⟩
      by_cases hempty : cur = []
      · exact .inr (.inl ⟨by rw [hempty], if_pos hempty⟩)
      · exact .inl ⟨cur, hempty, rfl, if_neg hempty⟩
    | @failure e he => exact ⟨_, rfl, .inr (.inr (.inr ⟨e, he, rfl, rfl, rfl⟩))⟩

/-- A STEP emits one outcome, which is never INIT's and SYNC's Done (R52). -/
theorem exec_step_outcome {s t : State} (hinit : s.inited = true) (hmode : s.cfgMode = .decoder)
    (h : exec .step s = .next t) : ∃ o, t.outcomes = o :: s.outcomes ∧ o ≠ .done := by
  cases hphase : s.phase with
  | exhausted =>
    rw [exec_step_exhausted hinit hmode hphase] at h
    cases h
    exact ⟨_, rfl, by simp⟩
  | failed =>
    rw [exec_step_failed hinit hmode hphase] at h
    cases h
    exact ⟨_, rfl, by simp⟩
  | justReset | active =>
    have hs : s.stepping = true := stepping_iff.mpr ⟨hinit, hmode, by rw [hphase]; rfl⟩
    obtain ⟨c, -, hcode⟩ := exec_step_codeEffect hs h
    cases hcode <;> exact ⟨_, rfl, by simp⟩

/-- An outcome other than Done adds its chunk, if it is one, to the chunks since INIT (R29). -/
theorem chunksSinceInit_cons (o : CmdOutcome) (os : List CmdOutcome) : o ≠ .done →
    chunksSinceInit (o :: os) = chunksSinceInit os ++ (match o with | .chunk cur => cur | _ => []) := by
  intro ho
  cases o with
  | chunk cur => rfl
  | done => exact absurd rfl ho
  | finished | value v | error e => exact (List.append_nil _).symm

/-- Settles O47: the buffer is read off the outcomes, which INIT's Done cuts and a STEP extends by one. -/
theorem stepExtendsTheDecodedBuffer : Obligations.StepExtendsTheDecodedBuffer := by
  constructor
  · intro source s t h
    cases h
    rfl
  · intro s t hinit hmode h
    obtain ⟨o, ho, hdone⟩ := exec_step_outcome hinit hmode h
    refine ⟨o, ho, ?_⟩
    rw [State.decodedBuffer, ho]
    exact chunksSinceInit_cons o s.outcomes hdone

/-! ### The width that fits a length -/

theorem bits_injective {w w' : Width} (h : w.bits = w'.bits) : w = w' := by
  cases w <;> cases w' <;> simp [Width.bits] at h ⊢

/-- The smallest width is 9, or one whose predecessor is too small (R16). -/
theorem widthFits_iff {w : Width} {len : Nat} :
    WidthFits w len ↔ len ≤ 2 ^ w.bits ∧ (w = .w9 ∨ 2 ^ (w.bits - 1) < len) := by
  constructor
  · intro ⟨hfits, hleast⟩
    refine ⟨hfits, ?_⟩
    cases w with
    | w9 => exact .inl rfl
    | w10 => exact .inr (not_le.mp fun h => absurd (hleast .w9 h) (by decide))
    | w11 => exact .inr (not_le.mp fun h => absurd (hleast .w10 h) (by decide))
    | w12 => exact .inr (not_le.mp fun h => absurd (hleast .w11 h) (by decide))
  · intro ⟨hfits, hlow⟩
    refine ⟨hfits, fun w' hw' => ?_⟩
    obtain rfl | hlow := hlow
    · exact nine_le_bits w'
    · have hlt : w.bits - 1 < w'.bits := (Nat.pow_lt_pow_iff_right (by decide)).mp (lt_of_lt_of_le hlow hw')
      omega

/-- A length has one smallest width. -/
theorem WidthFits.unique {w w' : Width} {len : Nat} (h : WidthFits w len) (h' : WidthFits w' len) : w = w' :=
  bits_injective (le_antisymm (h.least w' h'.fits) (h'.least w h.fits))

theorem bits_le_twelve (w : Width) : w.bits ≤ 12 := by
  cases w <;> decide

theorem succ_bits {w : Width} (h : w.bits < 12) : w.succ.bits = w.bits + 1 := by
  cases w with
  | w9 | w10 | w11 => rfl
  | w12 => exact absurd h (by decide)

/-- One entry more leaves the width the smallest, or makes its successor so (R71). -/
theorem WidthFits.grow {w : Width} {len : Nat} (h : WidthFits w len) (hroom : len < 4095) :
    WidthFits (if 2 ^ w.bits < len + 1 ∧ w.bits < 12 then w.succ else w) (len + 1) := by
  obtain ⟨hfits, hlow⟩ := widthFits_iff.mp h
  rw [widthFits_iff]
  split
  · next hpast =>
    obtain ⟨hover, hlt⟩ := hpast
    have hpos := Nat.two_pow_pos w.bits
    rw [succ_bits hlt, Nat.add_sub_cancel, pow_succ]
    exact ⟨by omega, .inr hover⟩
  · next hwithin =>
    have hfits' : len + 1 ≤ 2 ^ w.bits := by
      by_contra hover
      have hlast : w.bits = 12 := by
        have := bits_le_twelve w
        omega
      rw [hlast] at hover
      omega
    exact ⟨hfits', hlow.imp_right fun hlt => by omega⟩

/-! ### What a data step leaves of the dictionary and the width -/

theorem afterData_width_grown {s : State} {cur : Bytes} (hprev : s.prev ≠ []) (hroom : s.dict.length < 4095) :
    (s.afterData cur).width =
      if 2 ^ s.width.bits < s.dict.length + 1 ∧ s.width.bits < 12 then s.width.succ else s.width := by
  simp [State.afterData, hprev, hroom]

theorem afterData_width_kept {s : State} {cur : Bytes} (h : s.prev = [] ∨ 4095 ≤ s.dict.length) :
    (s.afterData cur).width = s.width := by
  have hkept : ¬(s.prev ≠ [] ∧ s.dict.length < 4095) := by rw [not_and_or, not_not, not_lt]; exact h
  simp only [State.afterData, hkept, false_and, if_false]

theorem afterData_length_grown {s : State} {cur : Bytes} (hprev : s.prev ≠ []) (hroom : s.dict.length < 4095) :
    (s.afterData cur).dict.length = s.dict.length + 1 := by
  rw [afterData_dict_grown hprev hroom, List.length_append, List.length_singleton]

/-- A dictionary grows or is left alone. -/
theorem grows_or_kept (s : State) :
    (s.prev ≠ [] ∧ s.dict.length < 4095) ∨ (s.prev = [] ∨ 4095 ≤ s.dict.length) := by
  rw [← not_lt, ← not_ne_iff (a := s.prev), ← not_and_or]
  exact em _

/-! ### The legal states -/

/-- A literal is one byte (R18). -/
theorem literal_length {s : State} (h : DictInv s) {code : Nat} {cur : Bytes} (hcode : code < 256)
    (hentry : s.dict[code]? = some cur) : cur.length = 1 := by
  have hliteral := literal_entry h.head_eq (BitVec.ofNat 8 code)
  rw [BitVec.toNat_ofNat, Nat.mod_eq_of_lt (show code < 2 ^ 8 from hcode), hentry] at hliteral
  rw [Option.some.inj hliteral, List.length_singleton]

/-- The length of what a data code yields: an entry's, or one more than that of `prev` (R83). -/
theorem Yields.length_cases {s : State} {cur : Bytes} (h : Yields s.dict s.prev cur) (hd : DictInv s) :
    cur.length = 1 ∨ (2 ≤ cur.length ∧ cur.length + 257 ≤ s.dict.length) ∨
    (cur = s.prev ++ s.prev.take 1 ∧ cur.length = s.prev.length + min 1 s.prev.length) := by
  cases h with
  | @entry code cur heof hreset hentry =>
    obtain hlit | hdyn := Nat.lt_or_ge code 256
    · exact .inl (literal_length hd hlit hentry)
    · obtain ⟨hlow, hhigh⟩ := hd.dynamic_len code cur (by omega) hentry
      obtain ⟨hlt, -⟩ := List.getElem?_eq_some_iff.mp hentry
      exact .inr (.inl ⟨hlow, by omega⟩)
  | kwkwk => exact .inr (.inr ⟨rfl, by rw [List.length_append, List.length_take]⟩)

/-- With a previous sequence a data code yields at least one byte. -/
theorem Yields.ne_nil {s : State} {cur : Bytes} (h : Yields s.dict s.prev cur) (hd : DictInv s)
    (hprev : s.prev ≠ []) : cur ≠ [] := by
  have hpos := List.length_pos_of_ne_nil hprev
  rw [← List.length_pos_iff]
  obtain hone | ⟨hlow, -⟩ | ⟨-, heq⟩ := h.length_cases hd <;> omega

/-- The first byte of what is not empty. -/
theorem take_one_of_ne_nil {cur : Bytes} (h : cur ≠ []) : ∃ b, cur.take 1 = [b] := by
  obtain ⟨b, rest, rfl⟩ := List.exists_cons_of_ne_nil h
  exact ⟨b, rfl⟩

/-- A dictionary that grows keeps its entries, and the new one is one byte longer than `prev`. -/
theorem getElem?_grown {d : List Bytes} {e e' : Bytes} {k : Nat} (h : (d ++ [e])[k]? = some e') :
    d[k]? = some e' ∨ (k = d.length ∧ e' = e) := by
  rw [List.getElem?_append] at h
  split at h
  · exact .inl h
  · next hge =>
    obtain ⟨hk, rfl⟩ := List.getElem?_eq_some_iff.mp h
    simp only [List.length_singleton] at hk
    exact .inr ⟨by omega, by simp⟩

theorem afterData_dictInv {s : State} {cur : Bytes} (hd : DictInv s) (hcur : Yields s.dict s.prev cur) :
    DictInv (s.afterData cur) := by
  have hge := hd.len_ge
  have hle := hd.len_le
  have hprevlen := hd.prev_len
  have hlen := hcur.length_cases hd
  obtain ⟨hprev, hroom⟩ | hkept := grows_or_kept s
  · have hdict := afterData_dict_grown (cur := cur) hprev hroom
    have hcount := afterData_length_grown (cur := cur) hprev hroom
    obtain ⟨b, hb⟩ := take_one_of_ne_nil (hcur.ne_nil hd hprev)
    have hpos := List.length_pos_of_ne_nil hprev
    refine ⟨by omega, by omega, ?_, ?_, fun _ => ?_, ?_⟩
    · rw [hdict, List.take_append_of_le_length hge, hd.head_eq]
    · intro k e hk he
      rw [hdict, hb] at he
      obtain hold | ⟨rfl, rfl⟩ := getElem?_grown he
      · exact hd.dynamic_len k e hk hold
      · have := hprevlen hroom
        rw [List.length_append, List.length_singleton]
        omega
    · have := hprevlen hroom
      rw [afterData_prev, hcount]
      omega
    · rw [afterData_width_grown hprev hroom, hcount]
      exact hd.width_fits.grow hroom
  · have hdict := afterData_dict_kept (cur := cur) hkept
    refine ⟨?_, ?_, ?_, ?_, ?_, ?_⟩ <;> rw [hdict]
    · exact hge
    · exact hle
    · exact hd.head_eq
    · exact hd.dynamic_len
    · intro hroom
      rw [afterData_prev]
      obtain hempty | hfull := hkept
      · rw [hempty, List.length_nil] at hlen
        omega
      · omega
    · rw [afterData_width_kept hkept]
      exact hd.width_fits

theorem dictInv_initial {s : State} (hdict : s.dict = initialDict) (hwidth : s.width = .w9)
    (hprev : s.prev = []) : DictInv s := by
  have hlen : s.dict.length = 258 := by rw [hdict, initialDict_length]
  refine ⟨hlen.ge, by omega, ?_, fun k e hk he => ?_, fun _ => ?_, ?_⟩
  · rw [hdict, List.take_of_length_le initialDict_length.le]
  · obtain ⟨hlt, -⟩ := List.getElem?_eq_some_iff.mp he
    omega
  · rw [hprev]
    exact Nat.zero_le _
  · rw [hwidth, hlen, widthFits_iff]
    exact ⟨by decide, .inl rfl⟩

theorem DictInv.congr {s t : State} (hd : DictInv s) (hdict : t.dict = s.dict) (hwidth : t.width = s.width)
    (hprev : t.prev = s.prev) : DictInv t := by
  refine ⟨?_, ?_, ?_, ?_, ?_, ?_⟩ <;> rw [hdict]
  · exact hd.len_ge
  · exact hd.len_le
  · exact hd.head_eq
  · exact hd.dynamic_len
  · rw [hprev]
    exact hd.prev_len
  · rw [hwidth]
    exact hd.width_fits

/-- The decoder's side of a legal state is kept with its registers. -/
theorem DecoderKept.inv {s t : State} (h : DecoderKept s t) (hs : s.Inv) (hc : CursorInv t.reader) : t.Inv := by
  refine ⟨hc, hs.dictionary.congr h.dict h.width h.prev, ?_, ?_⟩
  · rw [h.phase, h.prev]
    exact hs.phase_prev
  · rw [h.phase, h.err]
    exact hs.err_phase

theorem withPending_inv {s : State} (hs : s.Inv) (cs : List Command) : (s.withPending cs).Inv :=
  DecoderKept.inv (s := s) ⟨rfl, rfl, rfl, rfl, rfl⟩ hs hs.cursor

theorem withReader_inv {s : State} (hs : s.Inv) {c : BitCursor} (hc : CursorInv c) : (s.withReader c).Inv :=
  DecoderKept.inv (s := s) ⟨rfl, rfl, rfl, rfl, rfl⟩ hs hc

/-- A legal state as an initialisation leaves the decoder, whatever its marks and outcomes (R60, R94). -/
theorem inv_initial {s : State} (hc : CursorInv s.reader) (hdict : s.dict = initialDict) (hwidth : s.width = .w9)
    (hprev : s.prev = []) (hphase : s.phase = .justReset) (herr : s.err = .none) : s.Inv :=
  ⟨hc, dictInv_initial hdict hwidth hprev, fun _ => iff_of_true hphase hprev, by simp [herr, hphase]⟩

theorem afterInit_inv (source : Bytes) (s : State) : (s.afterInit source).Inv :=
  inv_initial (firstBit_inv source) rfl rfl rfl rfl rfl

/-- A live phase has no error on record (R23). -/
theorem State.Inv.err_of_stepping {s : State} (h : s.Inv) (hs : s.stepping = true) : s.err = .none := by
  obtain ⟨-, -, hlive⟩ := stepping_iff.mp hs
  by_contra herr
  rw [h.err_phase.mp herr] at hlive
  cases hlive

theorem CodeEffect.inv {s t : State} (h : CodeEffect s t) (hs : s.stepping = true) (hinv : s.Inv) : t.Inv := by
  have herr := hinv.err_of_stepping hs
  have hd := hinv.dictionary
  cases h with
  | eof =>
    exact ⟨hinv.cursor, hd.congr rfl rfl rfl, fun hlive => absurd hlive (by simp [Phase.live]), by simp [herr]⟩
  | reset => exact inv_initial hinv.cursor rfl rfl rfl rfl herr
  | @data cur hcur =>
    refine ⟨hinv.cursor, afterData_dictInv hd hcur, fun _ => ?_, ?_⟩
    · by_cases hempty : cur = [] <;> simp [hempty]
    · by_cases hempty : cur = [] <;> simp [hempty, herr]
  | failure he =>
    exact ⟨hinv.cursor, hd.congr rfl rfl rfl, fun hlive => absurd hlive (by simp [Phase.live]), by simp [he]⟩

theorem Effect.inv {i : Instr} {s t : State} (h : Effect s i t) (hinv : s.Inv) : t.Inv := by
  cases h with
  | refused => exact (refuse_decoderKept s).inv hinv hinv.cursor
  | began source => exact afterInit_inv source s
  | answered hc => exact (withReader_emit_decoderKept s _ _).inv hinv (hc.inv hinv.cursor)
  | ranCode hs hc hcode => exact hcode.inv hs (withReader_inv hinv (hc.inv hinv.cursor))

/-- Settles O49: the effects of an instruction one by one, growth and width being those of a data code. -/
theorem everyStepKeepsTheInvariant : Obligations.EveryStepKeepsTheInvariant := by
  intro s t hinv h
  obtain rfl | ⟨cs, i, heffect⟩ := step_effect h
  · exact hinv
  · exact heffect.inv (withPending_inv hinv cs)

/-! ### Each dynamic entry extends an earlier one -/

theorem PrefixClosed.congr {s t : State} (hp : PrefixClosed s) (hdict : t.dict = s.dict)
    (hprev : t.prev = s.prev) : PrefixClosed t := by
  refine ⟨?_, ?_⟩
  · rw [hdict]
    exact hp.entries
  · simp only [readableCode, hdict, hprev]
    exact hp.previous

theorem prefixClosed_initial {s : State} (hdict : s.dict = initialDict) (hprev : s.prev = []) :
    PrefixClosed s := by
  refine ⟨fun k e hk he => ?_, fun _ hne => absurd hprev hne⟩
  obtain ⟨hlt, -⟩ := List.getElem?_eq_some_iff.mp he
  rw [hdict, initialDict_length] at hlt
  omega

/-- An entry stays where it is in a dictionary that grows. -/
theorem getElem?_grown_of_some {d : List Bytes} {e e' : Bytes} {k : Nat} (h : d[k]? = some e') :
    (d ++ [e])[k]? = some e' := by
  obtain ⟨hlt, -⟩ := List.getElem?_eq_some_iff.mp h
  rw [List.getElem?_append_left hlt, h]

theorem afterData_entry_kept {s : State} {cur e : Bytes} {k : Nat} (h : s.dict[k]? = some e) :
    (s.afterData cur).dict[k]? = some e := by
  obtain ⟨hprev, hroom⟩ | hkept := grows_or_kept s
  · rw [afterData_dict_grown hprev hroom]
    exact getElem?_grown_of_some h
  · rw [afterData_dict_kept hkept, h]

theorem readableCode_of_entry {s : State} {j : Nat} {e : Bytes} (h : s.dict[j]? = some e) (heof : j ≠ 256)
    (hreset : j ≠ 257) : readableCode s j := by
  obtain ⟨hlt, -⟩ := List.getElem?_eq_some_iff.mp h
  exact ⟨hlt, heof, hreset⟩

/-- While the dictionary can grow, what a data code yields is an entry: the one it names, or with KWKWK the new
one. -/
theorem Yields.exists_entry {s : State} {cur : Bytes} (h : Yields s.dict s.prev cur) (hd : DictInv s)
    (hne : cur ≠ []) (hroom : (s.afterData cur).dict.length < 4095) :
    ∃ j, readableCode (s.afterData cur) j ∧ (s.afterData cur).dict[j]? = some cur := by
  cases h with
  | @entry code cur heof hreset hentry =>
    have hkept := afterData_entry_kept (cur := cur) hentry
    exact ⟨code, readableCode_of_entry hkept heof hreset, hkept⟩
  | kwkwk =>
    obtain ⟨hprev, hbefore⟩ | hempty | hfull := grows_or_kept s
    · have hge := hd.len_ge
      have hnew : (s.afterData (s.prev ++ s.prev.take 1)).dict[s.dict.length]? =
          some (s.prev ++ s.prev.take 1) := by
        rw [afterData_dict_grown hprev hbefore, kwkwk_take_one]
        exact List.getElem?_concat_length
      exact ⟨_, readableCode_of_entry hnew (by omega) (by omega), hnew⟩
    · rw [hempty] at hne
      exact absurd rfl hne
    · rw [afterData_dict_kept (.inr hfull)] at hroom
      omega

/-- A data code keeps R41: the entry it appends is `prev`, which is an entry, and one byte. -/
theorem afterData_prefixClosed {s : State} {cur : Bytes} (hd : DictInv s) (hp : PrefixClosed s)
    (hcur : Yields s.dict s.prev cur) : PrefixClosed (s.afterData cur) := by
  refine ⟨fun k e hk he => ?_, fun hroom hne => hcur.exists_entry hd hne hroom⟩
  have hold {k : Nat} (hk : 258 ≤ k) (he : s.dict[k]? = some e) : ∃ j b p, j < k ∧ j ≠ 256 ∧ j ≠ 257 ∧
      (s.afterData cur).dict[j]? = some p ∧ e = p ++ [b] := by
    obtain ⟨j, b, p, hj, heof, hreset, hentry, heq⟩ := hp.entries k e hk he
    exact ⟨j, b, p, hj, heof, hreset, afterData_entry_kept hentry, heq⟩
  obtain ⟨hprev, hroom⟩ | hkept := grows_or_kept s
  · obtain ⟨b, hb⟩ := take_one_of_ne_nil (hcur.ne_nil hd hprev)
    rw [afterData_dict_grown hprev hroom, hb] at he
    obtain he | ⟨rfl, rfl⟩ := getElem?_grown he
    · exact hold hk he
    · obtain ⟨j, ⟨hj, heof, hreset⟩, hentry⟩ := hp.previous hroom hprev
      exact ⟨j, b, s.prev, hj, heof, hreset, afterData_entry_kept hentry, rfl⟩
  · rw [afterData_dict_kept hkept] at he
    exact hold hk he

theorem CodeEffect.prefixClosed {s t : State} (h : CodeEffect s t) (hd : DictInv s) (hp : PrefixClosed s) :
    PrefixClosed t := by
  cases h with
  | eof => exact hp.congr rfl rfl
  | reset => exact prefixClosed_initial rfl rfl
  | data hcur => exact afterData_prefixClosed hd hp hcur
  | failure he => exact hp.congr rfl rfl

theorem Effect.prefixClosed {i : Instr} {s t : State} (h : Effect s i t) (hd : DictInv s)
    (hp : PrefixClosed s) : PrefixClosed t := by
  cases h with
  | refused => exact hp.congr rfl rfl
  | began source => exact prefixClosed_initial rfl rfl
  | answered hc => exact hp.congr rfl rfl
  | @ranCode _ c _ hs hc hcode =>
    exact hcode.prefixClosed (hd.congr (t := s.withReader c) rfl rfl rfl) (hp.congr rfl rfl)

/-- Settles O50: the effects of an instruction one by one, a data code's new entry being the case of work. -/
theorem everyStepKeepsThePrefixStructure : Obligations.EveryStepKeepsThePrefixStructure := by
  intro s t hinv hp h
  obtain rfl | ⟨cs, i, heffect⟩ := step_effect h
  · exact hp
  · exact heffect.prefixClosed (withPending_inv hinv cs).dictionary (hp.congr rfl rfl)

/-- Settles O48: the three states have their elements as an initialisation leaves them. -/
theorem invariantHoldsAtReset : Obligations.InvariantHoldsAtReset := by
  have hreset : State.reset.Inv ∧ PrefixClosed State.reset :=
    ⟨inv_initial (firstBit_inv []) rfl rfl rfl rfl rfl, prefixClosed_initial rfl rfl⟩
  have hnew (m : CfgMode) : (State.preInit m).Inv ∧ PrefixClosed (State.preInit m) :=
    ⟨inv_initial (firstBit_inv []) rfl rfl rfl rfl rfl, prefixClosed_initial rfl rfl⟩
  exact ⟨hreset, hnew⟩

/-! ### How the dictionary and the width change -/

/-- Settles O40: of the effects only a data code appends, `prev` and the first byte of what it yields, and only
INIT and RESET rebuild. -/
theorem dictionaryIsAppendOnly : Obligations.DictionaryIsAppendOnly := by
  intro s t hinv h
  have hd := hinv.dictionary
  obtain rfl | ⟨cs, i, heffect⟩ := step_effect h
  · exact .inl rfl
  · cases heffect with
    | refused => exact .inl rfl
    | began source => exact .inr (.inr ⟨rfl, rfl, rfl, rfl⟩)
    | answered hc => exact .inl rfl
    | @ranCode _ c _ hs hc hcode =>
      cases hcode with
      | eof => exact .inl rfl
      | reset => exact .inr (.inr ⟨rfl, rfl, rfl, rfl⟩)
      | @data cur hcur =>
        obtain ⟨hprev, hroom⟩ | hkept := grows_or_kept s
        · obtain ⟨b, hb⟩ := take_one_of_ne_nil (Yields.ne_nil (s := s) hcur hd hprev)
          refine .inr (.inl ⟨hroom, hprev, b, ?_⟩)
          rw [afterData_dict_grown (s := (s.withPending cs).withReader c) hprev hroom, hb]
          rfl
        · exact .inl (afterData_dict_kept hkept)
      | failure he => exact .inl rfl

/-- One entry more is past a width's range exactly at three lengths (R82). -/
theorem WidthFits.past_iff {w : Width} {len : Nat} (h : WidthFits w len) (hroom : len < 4095) :
    (2 ^ w.bits < len + 1 ∧ w.bits < 12) ↔ (len + 1 = 513 ∨ len + 1 = 1025 ∨ len + 1 = 2049) := by
  obtain ⟨hfits, hlow⟩ := widthFits_iff.mp h
  cases w <;> simp only [Width.bits, reduceCtorEq, false_or] at hfits hlow ⊢ <;> omega

/-- Settles O41: the width is the one smallest for the length before the step and after it. -/
theorem widthChangesOnlyPastItsRange : Obligations.WidthChangesOnlyPastItsRange := by
  intro s t hinv h
  have hbefore := hinv.dictionary.width_fits
  have hafter := everyStepKeepsTheInvariant s t hinv h
  refine ⟨fun hlen => ?_, fun hlen => ?_⟩
  · have hroom : s.dict.length < 4095 := by
      have := hafter.dictionary.len_le
      omega
    have hgrown := hbefore.grow hroom
    rw [← hlen] at hgrown
    have hwidth := hafter.dictionary.width_fits.unique hgrown
    have hpast := hbefore.past_iff hroom
    rw [← hlen] at hpast
    rw [hwidth]
    constructor
    · intro hturn
      obtain ⟨-, hlt⟩ := hpast.mpr hturn
      rw [if_pos (hpast.mpr hturn), succ_bits hlt]
    · intro h513 h1025 h2049
      exact if_neg fun hover => by
        obtain h | h | h := hpast.mp hover
        · exact h513 h
        · exact h1025 h
        · exact h2049 h
  · have hfits := hafter.dictionary.width_fits
    rw [hlen] at hfits
    exact hfits.unique hbefore

/-! ### Runs of data codes -/

/-- A STEP that emits a chunk ran RESET, or a data code that yields that chunk. -/
theorem exec_step_chunk {s t : State} {cur : Bytes} (hs : s.stepping = true) (h : exec .step s = .next t)
    (ho : t.outcomes = .chunk cur :: s.outcomes) :
    cur = [] ∨ ∃ c, Yields s.dict s.prev cur ∧ t = (s.withReader c).afterData cur := by
  obtain ⟨c, -, hcode⟩ := exec_step_codeEffect hs h
  cases hcode with
  | eof | failure => simp at ho
  | reset =>
    simp only [afterReset_outcomes, withReader_outcomes, List.cons.injEq, CmdOutcome.chunk.injEq, and_true] at ho
    exact .inl ho.symm
  | @data cur' hcur =>
    simp only [afterData_outcomes, withReader_outcomes, List.cons.injEq, CmdOutcome.chunk.injEq, and_true] at ho
    subst ho
    exact .inr ⟨c, hcur, rfl⟩

/-- Settles O46: a chunk is RESET's, an entry, or one byte longer than `prev`, which is short while the dictionary
can grow. -/
theorem chunkLengths : Obligations.ChunkLengths := by
  intro s t cur hinv hs h ho
  have hd := hinv.dictionary
  have hle := hd.len_le
  obtain hempty | ⟨c, hcur, -⟩ := exec_step_chunk hs h ho
  · exact .inl hempty
  · obtain hone | ⟨hlow, hhigh⟩ | ⟨heq, hlen⟩ := hcur.length_cases hd
    · exact .inr (.inl hone)
    · exact .inr (.inr (.inl ⟨hlow, by omega⟩))
    · obtain hprev | hprev := eq_or_ne s.prev []
      · rw [hprev] at heq
        exact .inl heq
      · have hpos := List.length_pos_of_ne_nil hprev
        obtain hroom | hfull := Nat.lt_or_ge s.dict.length 4095
        · have := hd.prev_len hroom
          exact .inr (.inr (.inl ⟨by omega, by omega⟩))
        · exact .inr (.inr (.inr ⟨by omega, by omega⟩))

/-- A STEP that emits a chunk that is not empty leaves a live legal decoder with that chunk as `prev`, and one
entry more where it could grow. -/
theorem exec_step_nonempty_chunk {s t : State} {cur : Bytes} (hinv : s.Inv) (hs : s.stepping = true)
    (h : exec .step s = .next t) (ho : t.outcomes = .chunk cur :: s.outcomes) (hne : cur ≠ []) :
    t.Inv ∧ t.stepping = true ∧ t.prev ≠ [] ∧
      t.dict.length = if s.prev ≠ [] then min 4095 (s.dict.length + 1) else s.dict.length := by
  obtain ⟨hinit, hmode, -⟩ := stepping_iff.mp hs
  have htinv := (exec_effect h).inv hinv
  obtain hempty | ⟨c, hcur, rfl⟩ := exec_step_chunk hs h ho
  · exact absurd hempty hne
  · refine ⟨htinv, stepping_iff.mpr ⟨hinit, hmode, afterData_live _ cur⟩, hne, ?_⟩
    have hle := hinv.dictionary.len_le
    obtain ⟨hprev, hroom⟩ | hkept := grows_or_kept s
    · rw [afterData_length_grown (s := s.withReader c) hprev hroom, if_pos hprev, withReader_dict]
      omega
    · rw [afterData_dict_kept (s := s.withReader c) hkept, withReader_dict]
      split
      · next hprev =>
        have hfull := hkept.resolve_left hprev
        omega
      · rfl

/-- Settles O42: the first data code leaves the 258 entries, each later one adds an entry while there is room, and
the width is the one that fits. -/
theorem dataCodesSinceInitialisation : Obligations.DataCodesSinceInitialisation := by
  intro f k hinv hs hdict hprev hk hrun
  have hcount (j : Nat) (hj : j < k) : (f (j + 1)).Inv ∧ (f (j + 1)).stepping = true ∧ (f (j + 1)).prev ≠ [] ∧
      (f (j + 1)).dict.length = min 4095 (257 + (j + 1)) := by
    induction j with
    | zero =>
      obtain ⟨hstep, cur, hne, ho⟩ := hrun 0 hj
      obtain ⟨hinv', hs', hprev', hlen⟩ := exec_step_nonempty_chunk hinv hs hstep ho hne
      rw [if_neg (not_not.mpr hprev), hdict, initialDict_length] at hlen
      exact ⟨hinv', hs', hprev', hlen⟩
    | succ j ih =>
      obtain ⟨hinv, hs, hprev, hbefore⟩ := ih (by omega)
      obtain ⟨hstep, cur, hne, ho⟩ := hrun (j + 1) hj
      obtain ⟨hinv', hs', hprev', hlen⟩ := exec_step_nonempty_chunk hinv hs hstep ho hne
      rw [if_pos hprev, hbefore] at hlen
      exact ⟨hinv', hs', hprev', by omega⟩
  obtain ⟨hlast, -, -, hlen⟩ := hcount (k - 1) (by omega)
  rw [Nat.sub_add_cancel hk] at hlast hlen
  refine ⟨hlen, ?_⟩
  obtain ⟨hfits, hlow⟩ := widthFits_iff.mp hlast.dictionary.width_fits
  rw [hlen] at hfits hlow
  cases hwidth : (f k).width <;> rw [hwidth] at hfits hlow <;>
    simp only [Width.bits, reduceCtorEq, false_or] at hfits hlow ⊢ <;> split_ifs <;> omega

end Sys2Proof.Machine
end

section
/-! PROOFS. A decode run does not depend on what came before its INIT. -/

namespace Sys2Proof.Machine

/-- The host's side of the state replaced: the mark, the commands not yet taken and the outcomes so far. -/
def State.withHost (s : State) (mark : Bool) (cs : List Command) (os : List CmdOutcome) : State :=
  { s with refusalMark := mark, pending := cs, outcomes := os }

@[simp] theorem withHost_outcomes (s : State) (mark : Bool) (cs : List Command) (os : List CmdOutcome) :
    (s.withHost mark cs os).outcomes = os := rfl

/-- An arm answers one outcome, and neither it nor the registers after it depend on the host's side. -/
theorem classArm_withHost {k : CodeClass} {code : Nat} {s t : State} (h : classArm k code s = .next t) :
    ∃ o, ∀ mark cs os, classArm k code (s.withHost mark cs os) = .next (t.withHost mark cs (o :: os)) := by
  have hentry (h : entryArm code s = .next t) :
      ∃ o, ∀ mark cs os, entryArm code (s.withHost mark cs os) = .next (t.withHost mark cs (o :: os)) := by
    obtain ⟨heof, hreset, cur, hcur, rfl⟩ := entryArm_next h
    exact ⟨.chunk cur, fun mark cs os => entryArm_eq (s := s.withHost mark cs os) heof hreset hcur⟩
  cases k with
  | eof => cases h; exact ⟨.finished, fun _ _ _ => rfl⟩
  | reset => cases h; exact ⟨.chunk [], fun _ _ _ => rfl⟩
  | kwkwk =>
    cases h
    rw [kwkwkArm_eq]
    exact ⟨.chunk (s.prev ++ s.prev.take 1), fun mark cs os => congrArg _ (kwkwkArm_eq (s.withHost mark cs os))⟩
  | lit => exact hentry h
  | dict => exact hentry h
  | corrupt => cases h; exact ⟨.error (.corruptStream code s.dict.length s.width.bits), fun _ _ _ => rfl⟩

theorem stepLive_withHost {s : State} (hs : s.stepping = true) : ∃ t o, stepLive s = .next t ∧
    ∀ mark cs os, stepLive (s.withHost mark cs os) = .next (t.withHost mark cs (o :: os)) := by
  have hlive (mark : Bool) (cs : List Command) (os : List CmdOutcome) :
      (s.withHost mark cs os).stepping = true := hs
  rcases hread : readBits s.width.bits s.reader with ⟨code | ⟨r, n⟩, c⟩
  · obtain ⟨t, harm⟩ := classArm_total (code := code) (s := s.withReader c)
    obtain ⟨o, hhost⟩ := classArm_withHost harm
    exact ⟨t, o, (stepLive_value hs hread).trans harm, fun mark cs os =>
      (stepLive_value (hlive mark cs os) hread).trans (hhost mark cs os)⟩
  · exact ⟨_, _, stepLive_eos hread, fun mark cs os => stepLive_eos (s := s.withHost mark cs os) hread⟩

/-- A STEP in DECODER mode answers one outcome, and neither it nor the registers after it depend on the host's
side. -/
theorem exec_step_withHost {s : State} (hinit : s.inited = true) (hmode : s.cfgMode = .decoder) :
    ∃ (t : State) (o : CmdOutcome), t.inited = true ∧ t.cfgMode = .decoder ∧
      ∀ mark cs os, exec .step (s.withHost mark cs os) = .next (t.withHost mark cs (o :: os)) := by
  cases hphase : s.phase with
  | exhausted => exact ⟨s, .finished, hinit, hmode, fun mark cs os =>
      exec_step_exhausted (s := s.withHost mark cs os) hinit hmode hphase⟩
  | failed => exact ⟨s, .error s.err, hinit, hmode, fun mark cs os =>
      exec_step_failed (s := s.withHost mark cs os) hinit hmode hphase⟩
  | justReset | active =>
    have hs : s.stepping = true := stepping_iff.mpr ⟨hinit, hmode, by rw [hphase]; rfl⟩
    obtain ⟨t, o, hstep, hhost⟩ := stepLive_withHost hs
    obtain ⟨hmode', -, -, hinit', -⟩ :=
      configurationAndMarkPersist .step s t ((execStep_live hs).trans hstep)
    exact ⟨t, o, hinit' hinit, hmode'.trans hmode, fun mark cs os =>
      (execStep_live (s := s.withHost mark cs os) hs).trans (hhost mark cs os)⟩

/-- A run's STEPs give the same whatever the host's side is. -/
theorem drain_withHost {k : Nat} {s : State} (hinit : s.inited = true) (hmode : s.cfgMode = .decoder)
    (buffer : Bytes) (mark mark' : Bool) (cs cs' : List Command) (os os' : List CmdOutcome) :
    drain k (s.withHost mark cs os) buffer = drain k (s.withHost mark' cs' os') buffer := by
  induction k generalizing s buffer os os' with
  | zero => rfl
  | succ k ih =>
    obtain ⟨t, o, hinit', hmode', hstep⟩ := exec_step_withHost hinit hmode
    cases o with
    | chunk cur =>
      rw [drain_chunk (hstep mark cs os) rfl, drain_chunk (hstep mark' cs' os') rfl]
      exact ih hinit' hmode' (buffer ++ cur) _ _
    | finished => rw [drain_finished (hstep mark cs os) rfl, drain_finished (hstep mark' cs' os') rfl]
    | error e => rw [drain_error (hstep mark cs os) rfl, drain_error (hstep mark' cs' os') rfl]
    | value v | done => simp only [drain, hstep, withHost_outcomes]

/-- Settles O52: INIT leaves states that differ on the host's side only, and no STEP of a run reads it. -/
theorem decodeIgnoresEarlierInputs : Obligations.DecodeIgnoresEarlierInputs := by
  intro s source hmode
  have hstart : s.afterInit source =
      ((State.preInit .decoder).afterInit source).withHost s.refusalMark s.pending (.done :: s.outcomes) := by
    rw [State.afterInit, hmode]
    rfl
  rw [decodeRun_eq_drain, decodeFrom, exec_init, hstart]
  exact drain_withHost (s := (State.preInit .decoder).afterInit source) rfl rfl [] _ _ _ _ _ _

end Sys2Proof.Machine
end
